-- ==== Sys2Proof/Word.lean ====
section
/-! DEFINITION. The word types of the CORE block (00_scope.md R8, R9, R10): what the spec treats as bits. -/

namespace Sys2Proof

/-- `u8`: a general register, a timer, a memory byte, an 8-bit immediate NN (R8, R10). -/
abbrev Byte := BitVec 8

/-- `u16`: PC, I, a return address, an instruction word (R8, R10). -/
abbrev Word := BitVec 16

/-- One hexadecimal digit of an instruction word (R15). -/
abbrev Nibble := BitVec 4

/-- A register index: an X or Y field. It is 4 bits wide, so every index names a register (R20). -/
abbrev Reg := BitVec 4

/-- A 12-bit immediate NNN (R89). -/
abbrev Addr12 := BitVec 12

end Sys2Proof
end

