-- ==== Sys2Proof/Config.lean ====
section
/-! DEFINITION. What an implementation fixes (the parameters of 00_scope.md R7) and the free values: the answers of the ports
outside the block (60_exceptions.md R257, 92_eei_decisions.md D23), which nothing in the model computes. -/

namespace Sys2Proof

/-- The two memory capacities of R50: 4096 bytes (the default) and 65536 bytes. -/
inductive MemSize where
  | classic
  | later
  deriving DecidableEq, Repr

/-- `MEM_SIZE` in bytes (R7, R50). -/
def MemSize.bytes : MemSize → Nat
  | .classic => 4096
  | .later => 65536

/-- `HALT_POLICY` (R7, R254). -/
inductive HaltPolicy where
  | stopNow
  | finishBatch
  deriving DecidableEq, Repr

/-- The parameters of R7 but for `cycle_count`, which is an argument of each `frame` call. -/
structure Params where
  memSize : MemSize
  stackLimit : Option Nat
  haltPolicy : HaltPolicy
  deriving DecidableEq, Repr

/-- The default column of R7. -/
def Params.default : Params :=
  { memSize := .classic, stackLimit := none, haltPolicy := .stopNow }

namespace Config

/-- FREE VALUE: the Video port's answer to the draw request numbered by the argument (R111, U6). Log entry 2. -/
opaque collision : Nat → Bool

/-- FREE VALUE: the Input port's answer to a `keydown` request (R145, R146, U7). Log entry 2. -/
opaque keyDown : Nat → Bool

/-- FREE VALUE: the Rng port's byte (R173, R262, U5). Log entry 2. -/
opaque randomByte : Nat → Byte

/-- FREE VALUE: the Input port's answer to a `key` request, `none` for a cancellation (R223, U8). Log entry 2. -/
opaque keyReply : Nat → Option Byte

/-- FREE VALUE: the Timer port's answer to `pump` (R261, U9). Log entry 2. -/
opaque pumpQuit : Nat → Bool

/-- FREE VALUE: for how many steps the next blocking request stays unanswered, `none` for ever (R263). Log entry 3. -/
opaque wait : Nat → Option Nat

end Config

end Sys2Proof
end

