-- ==== Sys2Proof/Syntax.lean ====
section
/-! DEFINITION. The instructions (30_encoding.md R88, one constructor per row of the opcode table, in the table's order) and
the patterns of the domain-independent decoder (R80). -/

namespace Sys2Proof

/-- The 32 instructions of R88, with the fields of R89: `x` and `y` register indices, `nn` 8-bit and `nnn` 12-bit
immediates, `n` the sprite length. -/
inductive Instr where
  /-- 00E0 (R110) -/
  | cls
  /-- 00EE (R120) -/
  | ret
  /-- 1NNN (R121) -/
  | jp (nnn : Addr12)
  /-- 2NNN (R122) -/
  | call (nnn : Addr12)
  /-- 3XNN (R141) -/
  | seImm (x : Reg) (nn : Byte)
  /-- 4XNN (R142) -/
  | sneImm (x : Reg) (nn : Byte)
  /-- 5XY0 (R143) -/
  | seReg (x y : Reg)
  /-- 9XY0 (R144) -/
  | sneReg (x y : Reg)
  /-- 6XNN (R162) -/
  | ldImm (x : Reg) (nn : Byte)
  /-- 7XNN (R163) -/
  | addImm (x : Reg) (nn : Byte)
  /-- 8XY0 (R164) -/
  | ldReg (x y : Reg)
  /-- 8XY1 (R165) -/
  | orReg (x y : Reg)
  /-- 8XY2 (R166) -/
  | andReg (x y : Reg)
  /-- 8XY3 (R167) -/
  | xorReg (x y : Reg)
  /-- 8XY4 (R168) -/
  | addReg (x y : Reg)
  /-- 8XY5 (R169) -/
  | subReg (x y : Reg)
  /-- 8XY6 (R170) -/
  | shrReg (x y : Reg)
  /-- 8XY7 (R171) -/
  | subnReg (x y : Reg)
  /-- 8XYE (R172) -/
  | shlReg (x y : Reg)
  /-- ANNN (R200) -/
  | ldIndex (nnn : Addr12)
  /-- BNNN (R123) -/
  | jpV0 (nnn : Addr12)
  /-- CXNN (R173) -/
  | rnd (x : Reg) (nn : Byte)
  /-- DXYN (R111) -/
  | drw (x y : Reg) (n : Nibble)
  /-- EX9E (R145) -/
  | skp (x : Reg)
  /-- EXA1 (R146) -/
  | sknp (x : Reg)
  /-- FX07 (R220) -/
  | ldFromDelay (x : Reg)
  /-- FX15 (R221) -/
  | ldDelay (x : Reg)
  /-- FX18 (R222) -/
  | ldSound (x : Reg)
  /-- FX0A (R223) -/
  | waitKey (x : Reg)
  /-- FX1E (R201) -/
  | addIndex (x : Reg)
  /-- FX55 (R202) -/
  | storeRegs (x : Reg)
  /-- FX65 (R203) -/
  | loadRegs (x : Reg)
  deriving DecidableEq, Repr

/-- One character of a pattern, read (R80): a literal hexadecimal digit, or a mask letter. -/
inductive Slot where
  | lit (v : Nibble)
  | mask (c : Char)
  deriving DecidableEq, Repr

/-- A pattern of exactly four characters, left to right (R80). -/
structure Pattern where
  s0 : Slot
  s1 : Slot
  s2 : Slot
  s3 : Slot
  deriving DecidableEq, Repr

/-- The extracted fields: the value of each mask letter, 0 for a letter the pattern lacks (R82, R83). -/
abbrev Fields := Char → Nat

end Sys2Proof
end

