-- ==== Sys2Proof/WellFormed.lean ====
section
/-! DEFINITION. The checks on plain data. An `Instr` needs none: each operand's type is exactly its field of R89, so every
term is an instruction some word encodes. What can be ill formed is a pattern table (R84) and a set of parameters (R7). -/

namespace Sys2Proof

/-- R84: a pattern has exactly four characters. -/
def patternTextOk (p : List Char) : Bool :=
  p.length == 4

/-- R84: a table is accepted only if each of its patterns is. -/
def tableTextOk {H : Type} (t : List (List Char × H)) : Bool :=
  t.all fun row => patternTextOk row.1

/-- R7: `STACK_LIMIT` is `none` or a natural number of at least 1. -/
def Params.wellFormed (p : Params) : Bool :=
  match p.stackLimit with
  | none => true
  | some k => decide (1 ≤ k)

end Sys2Proof
end

