-- ==== Sys2Proof/Decode.lean ====
section
/-! DEFINITION. Bit fields and byte order (00_scope.md R9, 20_memory.md R52), the pattern decoder (30_encoding.md R80-R87), the
opcode table (R88), the decoder of words and of bytes, and the encoder. -/

namespace Sys2Proof

/-! ## Bit fields and byte order -/

/-- `nib(w, 0) = w[15:12]` (R9). -/
def nib0 (w : Word) : Nibble := w.extractLsb' 12 4
/-- `nib(w, 1) = w[11:8]` (R9). -/
def nib1 (w : Word) : Nibble := w.extractLsb' 8 4
/-- `nib(w, 2) = w[7:4]` (R9). -/
def nib2 (w : Word) : Nibble := w.extractLsb' 4 4
/-- `nib(w, 3) = w[3:0]` (R9). -/
def nib3 (w : Word) : Nibble := w.extractLsb' 0 4

/-- The byte at the lower address of a word: bits 15:8 (R52). -/
def hiByte (w : Word) : Byte := w.extractLsb' 8 8
/-- The byte at the higher address of a word: bits 7:0 (R52). -/
def loByte (w : Word) : Byte := w.extractLsb' 0 8
/-- The big-endian word of two consecutive bytes (R52). -/
def wordOf (hi lo : Byte) : Word := hi ++ lo

/-! ## The pattern decoder (R80-R85), for any table -/

/-- The value of a literal hexadecimal digit of either case, `none` for a mask letter (R80). -/
def hexVal (c : Char) : Option Nibble :=
  if '0' ≤ c ∧ c ≤ '9' then some (BitVec.ofNat 4 (c.toNat - '0'.toNat))
  else if 'A' ≤ c ∧ c ≤ 'F' then some (BitVec.ofNat 4 (c.toNat - 'A'.toNat + 10))
  else if 'a' ≤ c ∧ c ≤ 'f' then some (BitVec.ofNat 4 (c.toNat - 'a'.toNat + 10))
  else none

/-- One character of a pattern, read (R80). -/
def readSlot (c : Char) : Slot :=
  match hexVal c with
  | some v => .lit v
  | none => .mask c

/-- A pattern from its characters, `none` unless there are exactly four (R84). -/
def readPattern : List Char → Option Pattern
  | [a, b, c, d] => some ⟨readSlot a, readSlot b, readSlot c, readSlot d⟩
  | _ => none

/-- A table from its rows, `none` (the table is rejected) if any pattern is malformed (R84). -/
def buildTable {H : Type} : List (List Char × H) → Option (List (Pattern × H))
  | [] => some []
  | (text, h) :: rows =>
    match readPattern text, buildTable rows with
    | some p, some t => some ((p, h) :: t)
    | _, _ => none

/-- A literal slot constrains its nibble, a mask letter does not (R81). -/
def Slot.agrees (s : Slot) (n : Nibble) : Bool :=
  match s with
  | .lit v => v == n
  | .mask _ => true

/-- `matches(p, w)` (R81). -/
def Pattern.matchesWord (p : Pattern) (w : Word) : Bool :=
  p.s0.agrees (nib0 w) && p.s1.agrees (nib1 w) && p.s2.agrees (nib2 w) && p.s3.agrees (nib3 w)

/-- One step of R82's fold. -/
def Slot.gather (s : Slot) (n : Nibble) (c : Char) (acc : Nat) : Nat :=
  if s = .mask c then acc * 16 + n.toNat else acc

/-- `field(p, w, c)` (R82, R83). -/
def Pattern.field (p : Pattern) (w : Word) (c : Char) : Nat :=
  p.s3.gather (nib3 w) c (p.s2.gather (nib2 w) c (p.s1.gather (nib1 w) c (p.s0.gather (nib0 w) c 0)))

/-- `decode(table, w)`: the first row that matches, with its fields; `none` where no row does (R85, R86). -/
def decodeTable {H : Type} (t : List (Pattern × H)) (w : Word) : Option (H × Fields) :=
  match t with
  | [] => none
  | (p, h) :: rows => if p.matchesWord w then some (h, p.field w) else decodeTable rows w

/-! ## The opcode table of the CORE block -/

/-- The field X or Y as a register index (R89). -/
def regField (f : Fields) (c : Char) : Reg := BitVec.ofNat 4 (f c)

/-- The field N of DXYN, 4 bits (R89). -/
def nibbleField (f : Fields) : Nibble := BitVec.ofNat 4 (f 'N')

/-- The field NN, 8 bits (R89). -/
def byteField (f : Fields) : Byte := BitVec.ofNat 8 (f 'N')

/-- The field NNN, 12 bits (R89). -/
def addrField (f : Fields) : Addr12 := BitVec.ofNat 12 (f 'N')

/-- The rows of R88 of the formats F_fixed, F_addr and F_imm, and the two register skips, in the listing's order. -/
def opcodeRowsLow : List (List Char × (Fields → Instr)) :=
  [ (['0', '0', 'E', '0'], fun _ => .cls),
    (['0', '0', 'E', 'E'], fun _ => .ret),
    (['1', 'N', 'N', 'N'], fun f => .jp (addrField f)),
    (['2', 'N', 'N', 'N'], fun f => .call (addrField f)),
    (['3', 'X', 'N', 'N'], fun f => .seImm (regField f 'X') (byteField f)),
    (['4', 'X', 'N', 'N'], fun f => .sneImm (regField f 'X') (byteField f)),
    (['5', 'X', 'Y', '0'], fun f => .seReg (regField f 'X') (regField f 'Y')),
    (['9', 'X', 'Y', '0'], fun f => .sneReg (regField f 'X') (regField f 'Y')),
    (['6', 'X', 'N', 'N'], fun f => .ldImm (regField f 'X') (byteField f)),
    (['7', 'X', 'N', 'N'], fun f => .addImm (regField f 'X') (byteField f)) ]

/-- The nine rows of the 8XY_ group (R88 rows 11 to 19). -/
def opcodeRowsAlu : List (List Char × (Fields → Instr)) :=
  [ (['8', 'X', 'Y', '0'], fun f => .ldReg (regField f 'X') (regField f 'Y')),
    (['8', 'X', 'Y', '1'], fun f => .orReg (regField f 'X') (regField f 'Y')),
    (['8', 'X', 'Y', '2'], fun f => .andReg (regField f 'X') (regField f 'Y')),
    (['8', 'X', 'Y', '3'], fun f => .xorReg (regField f 'X') (regField f 'Y')),
    (['8', 'X', 'Y', '4'], fun f => .addReg (regField f 'X') (regField f 'Y')),
    (['8', 'X', 'Y', '5'], fun f => .subReg (regField f 'X') (regField f 'Y')),
    (['8', 'X', 'Y', '6'], fun f => .shrReg (regField f 'X') (regField f 'Y')),
    (['8', 'X', 'Y', '7'], fun f => .subnReg (regField f 'X') (regField f 'Y')),
    (['8', 'X', 'Y', 'E'], fun f => .shlReg (regField f 'X') (regField f 'Y')) ]

/-- Rows 20 to 32 of R88. -/
def opcodeRowsHigh : List (List Char × (Fields → Instr)) :=
  [ (['A', 'N', 'N', 'N'], fun f => .ldIndex (addrField f)),
    (['B', 'N', 'N', 'N'], fun f => .jpV0 (addrField f)),
    (['C', 'X', 'N', 'N'], fun f => .rnd (regField f 'X') (byteField f)),
    (['D', 'X', 'Y', 'N'], fun f => .drw (regField f 'X') (regField f 'Y') (nibbleField f)),
    (['E', 'X', '9', 'E'], fun f => .skp (regField f 'X')),
    (['E', 'X', 'A', '1'], fun f => .sknp (regField f 'X')),
    (['F', 'X', '0', '7'], fun f => .ldFromDelay (regField f 'X')),
    (['F', 'X', '1', '5'], fun f => .ldDelay (regField f 'X')),
    (['F', 'X', '1', '8'], fun f => .ldSound (regField f 'X')),
    (['F', 'X', '0', 'A'], fun f => .waitKey (regField f 'X')),
    (['F', 'X', '1', 'E'], fun f => .addIndex (regField f 'X')),
    (['F', 'X', '5', '5'], fun f => .storeRegs (regField f 'X')),
    (['F', 'X', '6', '5'], fun f => .loadRegs (regField f 'X')) ]

/-- The 32 rows of R88 in their order of listing, each with the handler that takes its fields. -/
def opcodeRows : List (List Char × (Fields → Instr)) :=
  opcodeRowsLow ++ (opcodeRowsAlu ++ opcodeRowsHigh)

/-- The table the block decodes by. `opcodeRows` is well formed (Laws/Decode.lean), so it is never the empty one. -/
def opcodeTable : List (Pattern × (Fields → Instr)) :=
  (buildTable opcodeRows).getD []

/-- What decoding a word gives: an instruction, or the rejection of R86 with the raw word. -/
inductive Decoded where
  | instr (i : Instr)
  | unsupportedInstruction (w : Word)
  deriving DecidableEq, Repr

/-- `decode(table_R88, w)` (R85, R86). -/
def decode (w : Word) : Decoded :=
  match decodeTable opcodeTable w with
  | some (h, f) => .instr (h f)
  | none => .unsupportedInstruction w

/-- What decoding a string of bytes gives; every instruction is two bytes long (R94). -/
inductive DecodedBytes where
  | instr (i : Instr) (rest : List Byte)
  | unsupportedInstruction (w : Word) (rest : List Byte)
  | tooFewBytes
  deriving DecidableEq, Repr

/-- The instruction at the head of a string of bytes, the word big-endian (R52, R94). -/
def decodeBytes : List Byte → DecodedBytes
  | hi :: lo :: rest =>
    match decode (wordOf hi lo) with
    | .instr i => .instr i rest
    | .unsupportedInstruction w => .unsupportedInstruction w rest
  | _ => .tooFewBytes

/-- The instruction the decoder reads from the word `w` of at most 16 bits, its bits numbered from its least significant;
the bits above `nbits` are 0. -/
def decodeTableWord (nbits w : Nat) : Option Instr :=
  if nbits ≤ 16 then
    let word : Word := BitVec.ofNat 16 (w % 2 ^ nbits)
    match decodeBytes [hiByte word, loByte word] with
    | .instr i _ => some i
    | _ => none
  else none

/-! ## The encoder (R90) -/

/-- F_addr: `op NNN` (R90). -/
def formAddr (op : Nibble) (nnn : Addr12) : Word := op ++ nnn

/-- F_imm: `op X NN` (R90). -/
def formImm (op : Nibble) (x : Reg) (nn : Byte) : Word := (op ++ x : Byte) ++ nn

/-- F_rr and F_draw: `op X Y sub` and `op X Y N` (R90). -/
def formRR (op : Nibble) (x y : Reg) (sub : Nibble) : Word := (op ++ x : Byte) ++ (y ++ sub : Byte)

/-- F_xsub: `op X sub` (R90). -/
def formXsub (op : Nibble) (x : Reg) (sub : Byte) : Word := (op ++ x : Byte) ++ sub

/-- The word of an instruction (R88, R90). -/
def encode : Instr → Word
  | .cls => 0x00E0
  | .ret => 0x00EE
  | .jp nnn => formAddr 0x1 nnn
  | .call nnn => formAddr 0x2 nnn
  | .seImm x nn => formImm 0x3 x nn
  | .sneImm x nn => formImm 0x4 x nn
  | .seReg x y => formRR 0x5 x y 0x0
  | .sneReg x y => formRR 0x9 x y 0x0
  | .ldImm x nn => formImm 0x6 x nn
  | .addImm x nn => formImm 0x7 x nn
  | .ldReg x y => formRR 0x8 x y 0x0
  | .orReg x y => formRR 0x8 x y 0x1
  | .andReg x y => formRR 0x8 x y 0x2
  | .xorReg x y => formRR 0x8 x y 0x3
  | .addReg x y => formRR 0x8 x y 0x4
  | .subReg x y => formRR 0x8 x y 0x5
  | .shrReg x y => formRR 0x8 x y 0x6
  | .subnReg x y => formRR 0x8 x y 0x7
  | .shlReg x y => formRR 0x8 x y 0xE
  | .ldIndex nnn => formAddr 0xA nnn
  | .jpV0 nnn => formAddr 0xB nnn
  | .rnd x nn => formImm 0xC x nn
  | .drw x y n => formRR 0xD x y n
  | .skp x => formXsub 0xE x 0x9E
  | .sknp x => formXsub 0xE x 0xA1
  | .ldFromDelay x => formXsub 0xF x 0x07
  | .ldDelay x => formXsub 0xF x 0x15
  | .ldSound x => formXsub 0xF x 0x18
  | .waitKey x => formXsub 0xF x 0x0A
  | .addIndex x => formXsub 0xF x 0x1E
  | .storeRegs x => formXsub 0xF x 0x55
  | .loadRegs x => formXsub 0xF x 0x65

/-- The mask of an instruction's row: the bits its pattern fixes (R88; opcode_table.json "mask"). -/
def rowMask : Instr → Word
  | .cls | .ret => 0xFFFF
  | .jp _ | .call _ | .seImm _ _ | .sneImm _ _ | .ldImm _ _ | .addImm _ _ => 0xF000
  | .ldIndex _ | .jpV0 _ | .rnd _ _ | .drw _ _ _ => 0xF000
  | .seReg _ _ | .sneReg _ _ | .ldReg _ _ | .orReg _ _ | .andReg _ _ | .xorReg _ _ | .addReg _ _ => 0xF00F
  | .subReg _ _ | .shrReg _ _ | .subnReg _ _ | .shlReg _ _ => 0xF00F
  | .skp _ | .sknp _ | .ldFromDelay _ | .ldDelay _ | .ldSound _ | .waitKey _ => 0xF0FF
  | .addIndex _ | .storeRegs _ | .loadRegs _ => 0xF0FF

/-- The value of those bits (opcode_table.json "match"). -/
def rowMatch : Instr → Word
  | .cls => 0x00E0
  | .ret => 0x00EE
  | .jp _ => 0x1000
  | .call _ => 0x2000
  | .seImm _ _ => 0x3000
  | .sneImm _ _ => 0x4000
  | .seReg _ _ => 0x5000
  | .sneReg _ _ => 0x9000
  | .ldImm _ _ => 0x6000
  | .addImm _ _ => 0x7000
  | .ldReg _ _ => 0x8000
  | .orReg _ _ => 0x8001
  | .andReg _ _ => 0x8002
  | .xorReg _ _ => 0x8003
  | .addReg _ _ => 0x8004
  | .subReg _ _ => 0x8005
  | .shrReg _ _ => 0x8006
  | .subnReg _ _ => 0x8007
  | .shlReg _ _ => 0x800E
  | .ldIndex _ => 0xA000
  | .jpV0 _ => 0xB000
  | .rnd _ _ => 0xC000
  | .drw _ _ _ => 0xD000
  | .skp _ => 0xE09E
  | .sknp _ => 0xE0A1
  | .ldFromDelay _ => 0xF007
  | .ldDelay _ => 0xF015
  | .ldSound _ => 0xF018
  | .waitKey _ => 0xF00A
  | .addIndex _ => 0xF01E
  | .storeRegs _ => 0xF055
  | .loadRegs _ => 0xF065

end Sys2Proof
end

