-- ==== Sys2Proof/Machine/State.lean ====
section
/-! DEFINITION. The state of the CORE block (10_state.md, one-line record, R20-R37), what the spec names as a result or a step
in progress (the halt signal, the frame call, the unanswered request, the request history), the parameters of R7, and the
model's own three fields for the outside world. -/

namespace Sys2Proof.Machine

/-- The causes of R241. -/
inductive Cause where
  | unsupportedInstruction
  | stackUnderflow
  | outOfBoundsAccess
  | keyIndexOutOfRange
  | stackOverflow
  deriving DecidableEq, Repr

/-- The info record of R243: the instruction word, where the table of R243 gives one, and an address. -/
structure FaultInfo where
  opcode : Option Word
  addr : Nat
  deriving DecidableEq, Repr

/-- `Fault(cause, info)` (R13, R240). -/
structure FaultMark where
  cause : Cause
  info : FaultInfo
  deriving DecidableEq, Repr

/-- Why a step stops. -/
inductive Fault where
  /-- Raised by `step` on a block whose fault mark is set, when no host call is left: R240, the block takes no further step.
  Safe: the hardware does not go on either. -/
  | blockFaulted (m : FaultMark)
  deriving DecidableEq, Repr

/-- Why a step has no meaning. -/
inductive Refusal where
  /-- An instruction without a meaning, by its mnemonic. Raised only by an arm of `exec`. Safe: nothing is claimed of it. -/
  | notModelled (mnemonic : String)
  /-- Raised by `step` when the host calls `frame` on a block whose fault mark is set (R251's `require fault = none`).
  Safe: the hardware runs no frame then. -/
  | frameOnFaultedBlock
  deriving DecidableEq, Repr

/-- A request on a port (R14, R258-R262), as R257's event history records it. -/
inductive Event where
  | clear
  | draw (x y : Byte) (sprite : List Byte)
  | present
  | buzz (on : Bool)
  | keydown (k : Byte)
  | key
  | pump
  | byte
  deriving DecidableEq, Repr

/-- A request sent and not yet answered: the two that may wait (R263). -/
inductive Pending where
  /-- FX0A's `Input.key()`, with the register its answer goes to (R223). -/
  | key (x : Reg)
  /-- The frame's `Timer.pump()` (R251). -/
  | pump
  deriving DecidableEq, Repr

/-- A `frame` call in progress (R251): the cycles of its batch not yet started, and whether a cycle has halted. -/
structure FrameRun where
  left : Nat
  halted : Bool
  deriving DecidableEq, Repr

/-- The host's calls (R281, R283, R284). -/
inductive HostCall where
  | reset
  | load (addr : Nat) (bytes : List Byte)
  | frame (cycleCount : Nat)
  deriving DecidableEq, Repr

/-- Memory: the bytes that are not 0, by address (R50, R63); an unlisted address holds 0. Canonical form: `Memory.wf`. -/
abbrev Memory := List Host.Cell

/-- The state. INVENTORY.md, '## State', gives each field's rule. -/
structure State where
  /-- V0..VF (R20) -/
  regs : Vector Byte 16
  /-- I (R28) -/
  index : Word
  /-- PC (R24) -/
  pc : Word
  /-- the call stack, its top at the end (R29) -/
  stack : List Word
  /-- DT (R31) -/
  delay : Byte
  /-- ST (R32) -/
  sound : Byte
  /-- M (R50) -/
  mem : Memory
  /-- the fault mark (R34b) -/
  fault : Option FaultMark
  /-- the halt result of the last cycle (R34c, R95) -/
  halt : Bool
  /-- the `frame` call in progress (R251) -/
  frame : Option FrameRun
  /-- what the last `frame` call returned (R256) -/
  stop : Option Bool
  /-- the request not yet answered (R35, R263) -/
  pending : Option Pending
  /-- the parameters (R7) -/
  params : Params
  /-- the history of requests, oldest first (R257) -/
  events : List Event
  /-- the model's own: the host's calls still to come, oldest first (log entry 4) -/
  calls : List HostCall
  /-- the model's own: how many free values have been drawn (log entry 2) -/
  draws : Nat
  /-- the model's own: for how many steps the next blocking request stays unanswered, `none` for ever (log entry 3) -/
  wait : Option Nat
  deriving DecidableEq, Repr

/-- The construction state of R36 under given parameters. -/
def State.resetWith (p : Params) : State :=
  { regs := Vector.replicate 16 0
    index := 0
    pc := 0x0200
    stack := []
    delay := 0
    sound := 0
    mem := []
    fault := none
    halt := false
    frame := none
    stop := none
    pending := none
    params := p
    events := []
    calls := []
    draws := 0
    wait := some 0 }

/-- The machine right after reset (R36), with the default parameters of R7. -/
def State.reset : State := State.resetWith Params.default

end Sys2Proof.Machine
end

