-- ==== Sys2Proof/Machine/Ops.lean ====
section
/-! DEFINITION. The named operations over memory and registers (20_memory.md R50-R60, 10_state.md R20-R31), the program
counter's advance and skip (R25, R140), and the taking of a fault (60_exceptions.md R240-R245). -/

namespace Sys2Proof.Machine

/-! ## Memory -/

/-- The byte at an address; an unlisted one holds 0 (R63). -/
def Memory.read : Memory → Nat → Byte
  | [], _ => 0
  | (k, c) :: m, a => if k = a then c else Memory.read m a

/-- Memory with one byte written, in canonical form: writing 0 removes the entry. -/
def Memory.write : Memory → Nat → Byte → Memory
  | [], a, b => if b = 0 then [] else [(a, b)]
  | (k, c) :: m, a, b =>
    if a < k then (if b = 0 then (k, c) :: m else (a, b) :: (k, c) :: m)
    else if a = k then (if b = 0 then m else (a, b) :: m)
    else (k, c) :: Memory.write m a b

/-- The canonical form: addresses strictly rising, no entry equal to what an unlisted address reads as. -/
abbrev Memory.wf (m : Memory) : Prop :=
  m.Pairwise (fun p q => p.1 < q.1) ∧ ∀ p ∈ m, p.2 ≠ 0

/-- Every listed address lies below a bound (R50: addresses 0 .. MEM_SIZE - 1). -/
abbrev Memory.below (m : Memory) (bound : Nat) : Prop :=
  ∀ p ∈ m, p.1 < bound

/-- The bytes `M[a] .. M[a + n - 1]`, read in ascending order (R57). -/
def Memory.readList (m : Memory) : Nat → Nat → List Byte
  | _, 0 => []
  | a, n + 1 => Memory.read m a :: Memory.readList m (a + 1) n

/-- `for k in 0 .. n-1: M[a+k] <- bs[k]` (R58). -/
def Memory.writeList (m : Memory) : Nat → List Byte → Memory
  | _, [] => m
  | a, b :: bs => Memory.writeList (Memory.write m a b) (a + 1) bs

/-- An access of `n` bytes at `a` is in range iff `a + n <= MEM_SIZE`, in `Nat`, with no wrap (R54). -/
def State.inRange (s : State) (a n : Nat) : Bool :=
  decide (a + n ≤ s.params.memSize.bytes)

/-- `MemRead(a, 1)`; `none` stands for the raise of `OutOfBoundsAccess` at `a` (R55). -/
def State.memRead8 (s : State) (a : Nat) : Option Byte :=
  if s.inRange a 1 then some (Memory.read s.mem a) else none

/-- `MemRead(a, 2)`, big-endian (R52, R55). -/
def State.memRead16 (s : State) (a : Nat) : Option Word :=
  if s.inRange a 2 then some (wordOf (Memory.read s.mem a) (Memory.read s.mem (a + 1))) else none

/-- `MemWrite(a, 1, v)` (R56). -/
def State.memWrite8 (s : State) (a : Nat) (v : Byte) : Option State :=
  if s.inRange a 1 then some { s with mem := Memory.write s.mem a v } else none

/-- `MemWrite(a, 2, v)`, big-endian; no instruction uses it (R56). -/
def State.memWrite16 (s : State) (a : Nat) (v : Word) : Option State :=
  if s.inRange a 2 then
    some { s with mem := Memory.write (Memory.write s.mem a (hiByte v)) (a + 1) (loByte v) }
  else none

/-- `MemSlice(a, n)` (R57); the check comes before any byte (R59). -/
def State.memSlice (s : State) (a n : Nat) : Option (List Byte) :=
  if s.inRange a n then some (Memory.readList s.mem a n) else none

/-- `MemSliceWrite(a, bs)` (R58), all or nothing (R59). -/
def State.memSliceWrite (s : State) (a : Nat) (bs : List Byte) : Option State :=
  if s.inRange a bs.length then some { s with mem := Memory.writeList s.mem a bs } else none

/-! ## Registers -/

/-- `V[r]` (R11, R20). -/
def State.readReg (s : State) (r : Reg) : Byte := s.regs.get r.toFin

/-- `V[r] <- b`; no register is hardwired (R20). -/
def State.writeReg (s : State) (r : Reg) (b : Byte) : State :=
  { s with regs := s.regs.set r.toNat b r.isLt }

/-- VF, the flag register (R22). -/
def flagReg : Reg := 0xF

/-- `I <- v` (R28). -/
def State.setIndex (s : State) (v : Word) : State := { s with index := v }

/-- `PC <- target`; nothing is checked when PC is written (R124). -/
def State.setPc (s : State) (v : Word) : State := { s with pc := v }

/-- `DT <- v` (R31). -/
def State.setDelay (s : State) (v : Byte) : State := { s with delay := v }

/-- `ST <- v` (R32). -/
def State.setSound (s : State) (v : Byte) : State := { s with sound := v }

/-- The call stack replaced (R29). -/
def State.setStack (s : State) (l : List Word) : State := { s with stack := l }

/-- The registers V0, V1, ... from index `k` on, from a list of bytes: `for k in ..: V[k] <- bs[k]` (R203). -/
def loadFrom (k : Nat) : List Byte → Vector Byte 16 → Vector Byte 16
  | [], v => v
  | b :: bs, v => loadFrom (k + 1) bs (v.setIfInBounds k b)

/-- V0, V1, ... loaded from a list of bytes (R203). -/
def State.loadRegList (s : State) (bs : List Byte) : State :=
  { s with regs := loadFrom 0 bs s.regs }

/-- `[V[0], ..., V[x]]`, x + 1 bytes (R202). -/
def State.regList (s : State) (x : Reg) : List Byte := s.regs.toList.take (x.toNat + 1)

/-! ## Fetch, advance, skip -/

/-- The fetch of a cycle, `MemRead(PC, 2)`, afresh from memory (R95, R96, R67). -/
def State.fetch (s : State) : Option Word := s.memRead16 s.pc.toNat

/-- The advance before dispatch, `PC <- trunc16(a + 2)` (R24, R95). -/
def State.advance (s : State) : State := { s with pc := s.pc + 2 }

/-- The skip action, taken when the condition holds: 2 more bytes, modulo 65536 (R140). -/
def State.skipIf (s : State) (c : Bool) : State := { s with pc := if c then s.pc + 2 else s.pc }

/-- The address the executing instruction was fetched from: PC already holds it plus 2, modulo 65536 (R24; log entry 6). -/
def State.fetchAddr (s : State) : Nat := (s.pc - 2).toNat

/-! ## Taking a fault -/

/-- The code of a cause (R241). -/
def Cause.code : Cause → Nat
  | .unsupportedInstruction => 1
  | .stackUnderflow => 2
  | .outOfBoundsAccess => 3
  | .keyIndexOutOfRange => 4
  | .stackOverflow => 5

/-- `raise Fault(cause, info)`: the first fault sets the mark and nothing clears it but `reset` (R34b, R240). Nothing else
changes: faults are precise (R245), there is no handler (R246) and no return from one (R247). -/
def State.raise (s : State) (cause : Cause) (opcode : Option Word) (addr : Nat) : State :=
  { s with fault := some (s.fault.getD { cause := cause, info := { opcode := opcode, addr := addr } }) }

/-- The fault of an executing instruction whose info is its word and its fetch address (R243). -/
def State.raiseAtFetch (s : State) (cause : Cause) (i : Instr) : State :=
  s.raise cause (some (encode i)) s.fetchAddr

/-- `OutOfBoundsAccess` of an executing instruction: its word and the access's start address (R243). -/
def State.raiseOutOfBounds (s : State) (i : Instr) (addr : Nat) : State :=
  s.raise .outOfBoundsAccess (some (encode i)) addr

/-! ## The call stack -/

/-- Whether a push finds the stack full: `STACK_LIMIT = k and length(stack) = k` (R122). -/
def State.stackFull (s : State) : Bool :=
  match s.params.stackLimit with
  | none => false
  | some k => s.stack.length == k

/-- `push(stack, v)` (R11, R29). -/
def State.push (s : State) (v : Word) : State := s.setStack (s.stack ++ [v])

end Sys2Proof.Machine
end

