-- ==== Sys2Proof/Machine/Operands.lean ====
section
/-! DEFINITION. The operand forms (30_encoding.md R89, 44_index_memory.md): a register is read with `State.readReg`, an 8-bit
immediate is itself; here are the 12-bit address, the register widened to 16 bits, and the slice at I. -/

namespace Sys2Proof.Machine

/-- `zext16(NNN)`: an absolute address; no immediate is sign-extended, scaled or shifted (R89). -/
def addrOperand (nnn : Addr12) : Word := nnn.setWidth 16

/-- `zext16(V[r])` (R123, R201). -/
def State.readRegWide (s : State) (r : Reg) : Word := (s.readReg r).setWidth 16

/-- V0, the implicit operand of BNNN (R123). -/
def implicitReg : Reg := 0x0

/-- The only addressing mode: the effective address of DXYN, FX55 and FX65 is I itself (44_index_memory.md). -/
def State.dataAddr (s : State) : Nat := s.index.toNat

/-- The sprite operand of DXYN: N bytes at I (R111). -/
def State.sprite (s : State) (n : Nibble) : Option (List Byte) := s.memSlice s.dataAddr n.toNat

/-- The bytes FX65 loads: X + 1 bytes at I (R203). -/
def State.blockAt (s : State) (x : Reg) : Option (List Byte) := s.memSlice s.dataAddr (x.toNat + 1)

/-- A key operand: the Input port takes an index in 0..15 (R147). -/
def keyInRange (k : Byte) : Bool := decide (k.toNat ≤ 15)

end Sys2Proof.Machine
end

