-- ==== Sys2Proof/Machine/Flags.lean ====
section
/-! DEFINITION. The 8-bit ALU's results and the flag VF (43_alu.md R160, R161, R168-R172). The exact sum or difference is
computed in `Nat` and narrowed at the end. -/

namespace Sys2Proof.Machine

/-- A result and a flag, both computed from the registers as they were before the instruction (R161). -/
structure AluOut where
  value : Byte
  flag : Byte
  deriving DecidableEq, Repr

/-- Add with carry-out: bit 8 of the 9-bit sum (R168). -/
def aluAdd (a b : Byte) : AluOut :=
  { value := BitVec.ofNat 8 ((a.toNat + b.toNat) % 256)
    flag := BitVec.ofNat 8 ((a.toNat + b.toNat) / 256) }

/-- `a - b` modulo 256, computed as `(a + 256 - b) mod 256`, with flag 0 on borrow, else 1 (R169, R171). -/
def aluSub (a b : Byte) : AluOut :=
  { value := BitVec.ofNat 8 ((a.toNat + 256 - b.toNat) % 256)
    flag := if a.toNat < b.toNat then 0 else 1 }

/-- Logical shift right by 1; the flag is the bit shifted out (R170). -/
def aluShr (b : Byte) : AluOut :=
  { value := BitVec.ofNat 8 (b.toNat / 2), flag := BitVec.ofNat 8 (b.toNat % 2) }

/-- Logical shift left by 1, modulo 256; the flag is the bit shifted out (R172). -/
def aluShl (b : Byte) : AluOut :=
  { value := BitVec.ofNat 8 (b.toNat * 2 % 256), flag := BitVec.ofNat 8 (b.toNat / 128) }

/-- The flag of DXYN: 1 on a collision, else 0 (R111). -/
def collisionFlag (c : Bool) : Byte := if c then 1 else 0

/-- `V[15] <- f` (R22). -/
def State.writeFlag (s : State) (f : Byte) : State := s.writeReg flagReg f

/-- The result is written first and the flag last, so X = 0xF ends holding the flag (R161). -/
def State.writeAlu (s : State) (x : Reg) (r : AluOut) : State := (s.writeReg x r.value).writeFlag r.flag

end Sys2Proof.Machine
end

