-- ==== Sys2Proof/Machine/Ports.lean ====
section
/-! DEFINITION. Requests on the ports and their answers (60_exceptions.md R257-R263). An answer is a free value, the argument of
the operation that uses it; the two requests that may wait, `key` and `pump`, are held in `pending` until answered. -/

namespace Sys2Proof.Machine

/-- A request without a reply value: recorded in the history (R257). -/
def State.send (s : State) (e : Event) : State := { s with events := s.events ++ [e] }

/-- A request answered promptly: recorded, and one free value drawn (R257, R285). -/
def State.ask (s : State) (e : Event) : State :=
  { s with events := s.events ++ [e], draws := s.draws + 1 }

/-- A request that may wait: recorded, and held until answered (R263). -/
def State.hold (s : State) (e : Event) (p : Pending) : State :=
  { s with events := s.events ++ [e], pending := some p }

/-- The Input port's answer to FX0A: a key byte, written as it comes, or a cancellation, which sets halt (R223). -/
def State.answerKey (s : State) (x : Reg) (r : Option Byte) : State :=
  match r with
  | some k => { s.writeReg x k with pending := none }
  | none => { s with halt := true, pending := none }

/-- Whether a cycle of the frame in progress has halted (R251). -/
def State.frameHalted (s : State) : Bool :=
  match s.frame with
  | some f => f.halted
  | none => false

/-- The Timer port's answer to `pump`, with which the frame returns `halted or quit` (R251, R256). -/
def State.answerPump (s : State) (quit : Bool) : State :=
  { s with frame := none, pending := none, stop := some (s.frameHalted || quit) }

/-- After a blocking request is answered: one free value drawn, and a new wait for the next one (log entry 3). -/
def State.redraw (s : State) : State :=
  { s with draws := s.draws + 1, wait := Config.wait s.draws }

/-- The held request's answer, with the free values drawn for it. -/
def State.answer (s : State) (p : Pending) : State :=
  match p with
  | .key x => (s.answerKey x (Config.keyReply s.draws)).redraw
  | .pump => (s.answerPump (Config.pumpQuit s.draws)).redraw

/-- One step of a wait: the request is answered, or nothing changes but the model's own count (R263). -/
def State.poll (s : State) (p : Pending) : State :=
  match s.wait with
  | none => s
  | some (n + 1) => { s with wait := some n }
  | some 0 => s.answer p

end Sys2Proof.Machine
end

