-- ==== Sys2Proof/Machine/Alu.lean ====
section
/-! DEFINITION. 6XNN, 7XNN, 8XY0-8XY7, 8XYE, CXNN (43_alu.md). No instruction here can fault. -/

namespace Sys2Proof.Machine

/-- 6XNN (R162). -/
def execLdImm (x : Reg) (nn : Byte) (s : State) : Host.Outcome State Fault Refusal :=
  .next (s.writeReg x nn)

/-- 7XNN: the sum modulo 256, no flag (R163). -/
def execAddImm (x : Reg) (nn : Byte) (s : State) : Host.Outcome State Fault Refusal :=
  .next (s.writeReg x (aluAdd (s.readReg x) nn).value)

/-- 8XY0 (R164). -/
def execLdReg (x y : Reg) (s : State) : Host.Outcome State Fault Refusal :=
  .next (s.writeReg x (s.readReg y))

/-- 8XY1 (R165). -/
def execOrReg (x y : Reg) (s : State) : Host.Outcome State Fault Refusal :=
  .next (s.writeReg x (s.readReg x ||| s.readReg y))

/-- 8XY2 (R166). -/
def execAndReg (x y : Reg) (s : State) : Host.Outcome State Fault Refusal :=
  .next (s.writeReg x (s.readReg x &&& s.readReg y))

/-- 8XY3 (R167). -/
def execXorReg (x y : Reg) (s : State) : Host.Outcome State Fault Refusal :=
  .next (s.writeReg x (s.readReg x ^^^ s.readReg y))

/-- 8XY4 (R168). -/
def execAddReg (x y : Reg) (s : State) : Host.Outcome State Fault Refusal :=
  .next (s.writeAlu x (aluAdd (s.readReg x) (s.readReg y)))

/-- 8XY5: VX - VY (R169). -/
def execSubReg (x y : Reg) (s : State) : Host.Outcome State Fault Refusal :=
  .next (s.writeAlu x (aluSub (s.readReg x) (s.readReg y)))

/-- 8XY6: the source VY is shifted (R170). -/
def execShrReg (x y : Reg) (s : State) : Host.Outcome State Fault Refusal :=
  .next (s.writeAlu x (aluShr (s.readReg y)))

/-- 8XY7: VY - VX (R171). -/
def execSubnReg (x y : Reg) (s : State) : Host.Outcome State Fault Refusal :=
  .next (s.writeAlu x (aluSub (s.readReg y) (s.readReg x)))

/-- 8XYE: the source VY is shifted (R172). -/
def execShlReg (x y : Reg) (s : State) : Host.Outcome State Fault Refusal :=
  .next (s.writeAlu x (aluShl (s.readReg y)))

/-- CXNN with the port's byte `b` (R173). -/
def State.randomWith (s : State) (x : Reg) (nn b : Byte) : State :=
  (s.ask .byte).writeReg x (b &&& nn)

/-- CXNN (R173). -/
def execRnd (x : Reg) (nn : Byte) (s : State) : Host.Outcome State Fault Refusal :=
  .next (s.randomWith x nn (Config.randomByte s.draws))

end Sys2Proof.Machine
end

