-- ==== Sys2Proof/Machine/Control.lean ====
section
/-! DEFINITION. 00EE, 1NNN, 2NNN, BNNN (41_control_flow.md). PC already holds the fetch address plus 2. -/

namespace Sys2Proof.Machine

/-- 00EE: pop the return address into PC (R120). -/
def execRet (s : State) : Host.Outcome State Fault Refusal :=
  match s.stack.getLast? with
  | some a => .next ((s.setStack s.stack.dropLast).setPc a)
  | none => .next (s.raiseAtFetch .stackUnderflow .ret)

/-- 1NNN (R121). -/
def execJp (nnn : Addr12) (s : State) : Host.Outcome State Fault Refusal :=
  .next (s.setPc (addrOperand nnn))

/-- 2NNN: push PC, then jump (R122). -/
def execCall (nnn : Addr12) (s : State) : Host.Outcome State Fault Refusal :=
  if s.stackFull then .next (s.raiseAtFetch .stackOverflow (.call nnn))
  else .next ((s.push s.pc).setPc (addrOperand nnn))

/-- BNNN: jump to NNN plus V0 (R123). -/
def execJpV0 (nnn : Addr12) (s : State) : Host.Outcome State Fault Refusal :=
  .next (s.setPc (s.readRegWide implicitReg + addrOperand nnn))

end Sys2Proof.Machine
end

