-- ==== Sys2Proof/Machine/Index.lean ====
section
/-! DEFINITION. ANNN, FX1E, FX55, FX65 (44_index_memory.md). -/

namespace Sys2Proof.Machine

/-- ANNN (R200). -/
def execLdIndex (nnn : Addr12) (s : State) : Host.Outcome State Fault Refusal :=
  .next (s.setIndex (addrOperand nnn))

/-- FX1E: modulo 65536, VF unchanged, no bounds check (R201). -/
def execAddIndex (x : Reg) (s : State) : Host.Outcome State Fault Refusal :=
  .next (s.setIndex (s.index + s.readRegWide x))

/-- FX55: V0..VX into memory at I, all or nothing; I unchanged (R202, R59). -/
def execStoreRegs (x : Reg) (s : State) : Host.Outcome State Fault Refusal :=
  match s.memSliceWrite s.dataAddr (s.regList x) with
  | some t => .next t
  | none => .next (s.raiseOutOfBounds (.storeRegs x) s.dataAddr)

/-- FX65: V0..VX from memory at I, all or nothing; I unchanged (R203, R59). -/
def execLoadRegs (x : Reg) (s : State) : Host.Outcome State Fault Refusal :=
  match s.blockAt x with
  | some bs => .next (s.loadRegList bs)
  | none => .next (s.raiseOutOfBounds (.loadRegs x) s.dataAddr)

end Sys2Proof.Machine
end

