-- ==== Sys2Proof/Machine/Skips.lean ====
section
/-! DEFINITION. 3XNN, 4XNN, 5XY0, 9XY0, EX9E, EXA1 (42_skips.md). -/

namespace Sys2Proof.Machine

/-- 3XNN (R141). -/
def execSeImm (x : Reg) (nn : Byte) (s : State) : Host.Outcome State Fault Refusal :=
  .next (s.skipIf (s.readReg x == nn))

/-- 4XNN (R142). -/
def execSneImm (x : Reg) (nn : Byte) (s : State) : Host.Outcome State Fault Refusal :=
  .next (s.skipIf (s.readReg x != nn))

/-- 5XY0 (R143). -/
def execSeReg (x y : Reg) (s : State) : Host.Outcome State Fault Refusal :=
  .next (s.skipIf (s.readReg x == s.readReg y))

/-- 9XY0 (R144). -/
def execSneReg (x y : Reg) (s : State) : Host.Outcome State Fault Refusal :=
  .next (s.skipIf (s.readReg x != s.readReg y))

/-- A key skip: the key index is checked before any request (R147), then `keydown` is asked and the port's answer `d` decides
whether the condition holds. -/
def State.keySkip (s : State) (i : Instr) (x : Reg) (holds : Bool) : State :=
  if keyInRange (s.readReg x) then (s.ask (.keydown (s.readReg x))).skipIf holds
  else s.raiseAtFetch .keyIndexOutOfRange i

/-- EX9E (R145). -/
def execSkp (x : Reg) (s : State) : Host.Outcome State Fault Refusal :=
  .next (s.keySkip (.skp x) x (Config.keyDown s.draws))

/-- EXA1 (R146). -/
def execSknp (x : Reg) (s : State) : Host.Outcome State Fault Refusal :=
  .next (s.keySkip (.sknp x) x (!Config.keyDown s.draws))

end Sys2Proof.Machine
end

