-- ==== Sys2Proof/Machine/Timers.lean ====
section
/-! DEFINITION. FX07, FX15, FX18, FX0A (45_timers_input.md). -/

namespace Sys2Proof.Machine

/-- FX07 (R220). -/
def execLdFromDelay (x : Reg) (s : State) : Host.Outcome State Fault Refusal :=
  .next (s.writeReg x s.delay)

/-- FX15 (R221). -/
def execLdDelay (x : Reg) (s : State) : Host.Outcome State Fault Refusal :=
  .next (s.setDelay (s.readReg x))

/-- FX18: no buzz request of its own (R222). -/
def execLdSound (x : Reg) (s : State) : Host.Outcome State Fault Refusal :=
  .next (s.setSound (s.readReg x))

/-- FX0A: one `key` request, answered in this step or held until it is (R223, R263). -/
def execWaitKey (x : Reg) (s : State) : Host.Outcome State Fault Refusal :=
  .next ((s.hold .key (.key x)).poll (.key x))

end Sys2Proof.Machine
end

