-- ==== Sys2Proof/Machine/Video.lean ====
section
/-! DEFINITION. 00E0 and DXYN (40_video.md). -/

namespace Sys2Proof.Machine

/-- 00E0: one `clear` request (R110). -/
def execCls (s : State) : Host.Outcome State Fault Refusal :=
  .next (s.send .clear)

/-- DXYN once its sprite is read, with the port's answer `c`: VF becomes 1 or 0 (R111). The coordinates are VX and VY as they
were before VF is written, sent raw. -/
def State.drawWith (s : State) (x y : Reg) (sprite : List Byte) (c : Bool) : State :=
  (s.ask (.draw (s.readReg x) (s.readReg y) sprite)).writeFlag (collisionFlag c)

/-- DXYN (R111). -/
def execDrw (x y : Reg) (n : Nibble) (s : State) : Host.Outcome State Fault Refusal :=
  match s.sprite n with
  | some sprite => .next (s.drawWith x y sprite (Config.collision s.draws))
  | none => .next (s.raiseOutOfBounds (.drw x y n) s.dataAddr)

end Sys2Proof.Machine
end

