-- ==== Sys2Proof/Machine/Frame.lean ====
section
/-! DEFINITION. The frame loop (60_exceptions.md R251-R256) around the cycle, and the host's calls
(70_reset_and_hazards.md R280-R285). -/

namespace Sys2Proof.Machine

/-- A timer's count down by 1, stopping at 0 (R252, R253). -/
def countDown (t : Byte) : Byte := if t = 0 then 0 else t - 1

/-- The start of `frame(n, P)`: the timers, the one `buzz` request, and the batch (R251-R253). -/
def State.startFrame (s : State) (n : Nat) : State :=
  { s.send (.buzz (s.sound != 0)) with
    delay := countDown s.delay
    sound := countDown s.sound
    frame := some { left := n, halted := false }
    stop := none }

/-- The end of a frame's batch: `present`, then `pump` (R251). -/
def State.finishFrame (s : State) : State :=
  ((s.send .present).hold .pump .pump).poll .pump

/-- One cycle of the batch begins: the halt result of the one before is not kept (R34c). -/
def State.beginCycle (s : State) : State :=
  { s with
    halt := false
    frame := s.frame.map fun f => { f with left := f.left - 1 } }

/-- What a finished cycle does to the frame it ran in: a fault ends the frame at once (R255); a halt ends it under
`stop_now`, or is remembered under `finish_batch` (R254); a cycle whose key request is still held has not ended (R263). -/
def State.settleFrame (s : State) : State :=
  match s.frame with
  | none => s
  | some f =>
    if s.fault.isSome then { s with frame := none }
    else if s.pending.isSome then s
    else if s.halt then
      match s.params.haltPolicy with
      | .stopNow => { s with frame := none, stop := some true }
      | .finishBatch => { s with frame := some { f with halted := true } }
    else s

/-- `load(a, bs)`: `MemSliceWrite`, or the fault with the load's address (R283). -/
def State.hostLoad (s : State) (a : Nat) (bs : List Byte) : State :=
  match s.memSliceWrite a bs with
  | some t => t
  | none => s.raise .outOfBoundsAccess none a

/-- `reset()`: every piece of the block's state at its construction value, the parameters kept; it sends no request
(R281). The history, the draws, the wait and the host's calls are not the block's and stay (log entry 7). -/
def State.hostReset (s : State) : State :=
  { State.resetWith s.params with
    events := s.events, calls := s.calls, draws := s.draws, wait := s.wait }

/-- One call of the host, made when no other call is running (R285). -/
def State.hostCall (s : State) (c : HostCall) : Host.Outcome State Fault Refusal :=
  match c with
  | .reset => .next s.hostReset
  | .load a bs => .next (s.hostLoad a bs)
  | .frame n => if s.fault.isSome then .refused .frameOnFaultedBlock else .next (s.startFrame n)

end Sys2Proof.Machine
end

