-- ==== Sys2Proof/Machine/Cycle.lean ====
section
/-! DEFINITION. The cycle (30_encoding.md R95) and one step of the block with its host: a cycle, a step of a wait, the end of a
frame, or a call of the host. -/

namespace Sys2Proof.Machine

/-- An outcome whose next state, if any, is passed on. -/
def mapNext (f : State → State) : Host.Outcome State Fault Refusal → Host.Outcome State Fault Refusal
  | .next s => .next (f s)
  | .fault r => .fault r
  | .refused r => .refused r

/-- What a cycle does with the word it fetched, PC already advanced: decode and run, or the fault of R86. -/
def dispatchWord (w : Word) (s : State) : Host.Outcome State Fault Refusal :=
  match decode w with
  | .instr i => exec i s
  | .unsupportedInstruction w => .next (s.raise .unsupportedInstruction (some w) s.fetchAddr)

/-- `cycle(s)` (R95): fetch, advance, decode, run. A fetch out of range faults before the advance (R96, R245). -/
def cycle (s : State) : Host.Outcome State Fault Refusal :=
  match s.fetch with
  | some w => dispatchWord w s.advance
  | none => .next (s.raise .outOfBoundsAccess none s.pc.toNat)

/-- A cycle with what it means for the frame it runs in (R251). -/
def frameCycle (s : State) : Host.Outcome State Fault Refusal :=
  mapNext State.settleFrame (cycle s.beginCycle)

/-- One step. A faulted block takes no step of its own (R240); a held request is waited for (R263); a frame whose batch is
over ends (R251); with no frame in progress the host's next call is made (R285), and with no call left the block runs one
cycle, as 95_test_vectors.md runs cycles outside the frame loop (log entry 4). -/
def blockStep (s : State) : Host.Outcome State Fault Refusal :=
  match s.fault with
  | some m =>
    match s.calls with
    | [] => .fault (.blockFaulted m)
    | c :: cs => State.hostCall { s with calls := cs } c
  | none =>
    match s.pending with
    | some p => .next (s.poll p).settleFrame
    | none =>
      match s.frame with
      | some f => if f.left = 0 then .next s.finishFrame else frameCycle s
      | none =>
        match s.calls with
        | [] => frameCycle s
        | c :: cs => State.hostCall { s with calls := cs } c

end Sys2Proof.Machine
end

