-- ==== Sys2Proof/Machine/Step.lean ====
section
/-! DEFINITION. The step, and an instruction placed where the step fetches. -/

namespace Sys2Proof.Machine

/-- One step of the machine. -/
def step (s : State) : Host.Outcome State Fault Refusal := blockStep s

/-- `s` with the word `w` (its bits above `nbits` zero) stored big-endian where `step` fetches next. The fetch needs: no fault
mark, no held request, no frame or host call before it (all so at reset), and a PC with two bytes of memory at it (kept
where it has them, else 0x0200). Log entry 5. -/
def State.withFetchWord (s : State) (nbits w : Nat) : State :=
  let word : Word := BitVec.ofNat 16 (w % 2 ^ nbits)
  let pc : Word := if s.inRange s.pc.toNat 2 then s.pc else 0x0200
  { s with
    pc := pc
    mem := Memory.writeList s.mem pc.toNat [hiByte word, loByte word]
    fault := none
    pending := none
    frame := none
    calls := [] }

end Sys2Proof.Machine
end

