-- ==== Sys2Proof/Safety.lean ====
section
/-! DEFINITION. The terms claims use: agreement of two states outside named parts, a block ready to run a cycle, the invariant,
and what a good run is (60_exceptions.md R240: reaching a fault refutes a claim that a program runs without fault). -/

namespace Sys2Proof.Machine

/-! ## Frames -/

/-- The parts of the state that a frame statement may name as written, but for the numbered registers. -/
inductive Part where
  | index
  | pc
  | stack
  | delay
  | sound
  | memory
  | fault
  | halt
  | frame
  | stop
  | pending
  | params
  | events
  | calls
  | draws
  | wait
  deriving DecidableEq, Repr

/-- One part holds in `t` what it held in `s`. Memory is compared by the read of every byte. -/
def Part.same (p : Part) (s t : State) : Prop :=
  match p with
  | .index => t.index = s.index
  | .pc => t.pc = s.pc
  | .stack => t.stack = s.stack
  | .delay => t.delay = s.delay
  | .sound => t.sound = s.sound
  | .memory => ∀ a, Memory.read t.mem a = Memory.read s.mem a
  | .fault => t.fault = s.fault
  | .halt => t.halt = s.halt
  | .frame => t.frame = s.frame
  | .stop => t.stop = s.stop
  | .pending => t.pending = s.pending
  | .params => t.params = s.params
  | .events => t.events = s.events
  | .calls => t.calls = s.calls
  | .draws => t.draws = s.draws
  | .wait => t.wait = s.wait

/-- Every general register outside `rs`, and every other part of the state outside `ps`, is unchanged. -/
def UnchangedBut (rs : List Reg) (ps : List Part) (s t : State) : Prop :=
  (∀ r, r ∉ rs → t.readReg r = s.readReg r) ∧ ∀ p, p ∉ ps → p.same s t

/-! ## Cycles -/

/-- The next step is a cycle: no fault mark, no held request, and either cycles left in the frame in progress, or no frame in
progress and no host call to make first. -/
def State.Ready (s : State) : Prop :=
  s.fault = none ∧ s.pending = none ∧
    match s.frame with
    | some f => f.left ≠ 0
    | none => s.calls = []

/-- The next step makes the host's call `c` and leaves the calls `cs`: no other call is running (R285), or the block is
faulted. -/
def State.Makes (s : State) (c : HostCall) (cs : List HostCall) : Prop :=
  s.calls = c :: cs ∧ (s.fault ≠ none ∨ (s.pending = none ∧ s.frame = none))

/-- The state an instruction's meaning is run from: a cycle of the batch counted, halt cleared, PC advanced (R95, R251). -/
def State.atDispatch (s : State) : State := s.beginCycle.advance

/-! ## The invariant -/

/-- What every state of a run satisfies. -/
structure State.Inv (s : State) : Prop where
  /-- the memory is in canonical form -/
  memWf : Memory.wf s.mem
  /-- memory is `MEM_SIZE` bytes and is never resized (R50, R63) -/
  memBelow : Memory.below s.mem s.params.memSize.bytes
  /-- the parameters are those R7 allows -/
  paramsOk : s.params.wellFormed = true
  /-- the call stack never exceeds a set `STACK_LIMIT` (R30) -/
  stackBound : ∀ k, s.params.stackLimit = some k → s.stack.length ≤ k
  /-- a faulted block has no frame in progress (R255) and no request held (R245) -/
  faultIdle : s.fault ≠ none → s.frame = none ∧ s.pending = none
  /-- `pump` is asked only when the frame's batch is over (R251) -/
  pumpAtEnd : s.pending = some .pump → ∃ f, s.frame = some f ∧ f.left = 0
  /-- a cycle whose key request is held has not halted (R223, R263) -/
  keyOpen : ∀ x, s.pending = some (.key x) → s.halt = false
  /-- a frame in progress has returned nothing yet (R251) -/
  frameOpen : s.frame ≠ none → s.stop = none
  /-- under `stop_now` a frame does not outlive a halted cycle (R254) -/
  stopNow : s.params.haltPolicy = .stopNow → ∀ f, s.frame = some f → f.halted = false

/-! ## Runs -/

/-- The meanings of a list of instructions, one after the other, up to the first that stops. -/
def runInstrs : List Instr → State → Host.Outcome State Fault Refusal
  | [], s => .next s
  | i :: is, s =>
    match exec i s with
    | .next t => runInstrs is t
    | .fault r => .fault r
    | .refused r => .refused r

/-- States reached by steps. -/
inductive Steps : State → State → Prop where
  | refl (s : State) : Steps s s
  | tail (s t u : State) : Steps s t → step t = .next u → Steps s u

/-- A good run of `k` steps: each gives a next state, none with the fault mark set (R240). -/
def GoodRun (s : State) : Nat → Prop
  | 0 => s.fault = none
  | k + 1 => s.fault = none ∧ ∃ t, step s = .next t ∧ GoodRun t k

end Sys2Proof.Machine
end

