-- ==== Sys2Proof/Certificates/Slice0/Obligations.lean ====
section
/-! DEFINITION. The statements for the provers. A meaning runs after the cycle has set PC to the fetch address plus 2
(30_encoding.md R95), so `s.pc` below is already that value; `a` names the fetch address where a fault records it. Each
instruction's statement says how its words decode, that `exec` answers a next state, what that state holds, and that nothing
else changed (`UnchangedBut registers parts`). Statements about free values hold for every value of them. -/

open Sys2Proof Sys2Proof.Machine

/-! ## Video -/

/-- R110. -/
def Obligations.ClsSendsOneClearRequest : Prop :=
  decode 0x00E0 = .instr .cls ∧
  ∀ s : State, ∃ t, exec .cls s = .next t ∧ t.events = s.events ++ [.clear] ∧ UnchangedBut [] [.events] s t

/-- DXYN, 40_video.md. The port's answer is the free value `Config.collision s.draws` (log entry 2); N = 0 and the raw
coordinates are the spec's decision D19, the range test its D7, the recorded info its D13. -/
def Obligations.DrwSendsSpriteAndSetsCollisionFlag : Prop :=
  (∀ w : Word, w &&& 0xF000 = 0xD000 → decode w = .instr (.drw (nib1 w) (nib2 w) (nib3 w))) ∧
  (∀ (s : State) (x y : Reg) (n : Nibble), s.dataAddr + n.toNat ≤ s.params.memSize.bytes →
    ∃ t bytes, exec (.drw x y n) s = .next t ∧
      bytes.length = n.toNat ∧
      (∀ k, k < n.toNat → bytes[k]? = some (Memory.read s.mem (s.index.toNat + k))) ∧
      t.events = s.events ++ [.draw (s.readReg x) (s.readReg y) bytes] ∧
      t.readReg 0xF = (if Config.collision s.draws then 1 else 0) ∧
      t.draws = s.draws + 1 ∧
      UnchangedBut [0xF] [.events, .draws] s t) ∧
  (∀ (s : State) (x y : Reg) (n : Nibble), s.fault = none → s.params.memSize.bytes < s.dataAddr + n.toNat →
    ∃ t, exec (.drw x y n) s = .next t ∧
      t.fault = some ⟨.outOfBoundsAccess, ⟨some (encode (.drw x y n)), s.index.toNat⟩⟩ ∧
      UnchangedBut [] [.fault] s t)

/-! ## Control transfer -/

/-- R120. -/
def Obligations.RetPopsReturnAddressIntoPc : Prop :=
  decode 0x00EE = .instr .ret ∧
  (∀ (s : State) (l : List Word) (v : Word), s.stack = l ++ [v] →
    ∃ t, exec .ret s = .next t ∧ t.pc = v ∧ t.stack = l ∧ UnchangedBut [] [.pc, .stack] s t) ∧
  (∀ (s : State) (a : Word), s.stack = [] → s.fault = none → s.pc = a + 2 →
    ∃ t, exec .ret s = .next t ∧ t.fault = some ⟨.stackUnderflow, ⟨some 0x00EE, a.toNat⟩⟩ ∧
      UnchangedBut [] [.fault] s t)

/-- R121, with its corner cases: the jump to itself runs for ever without a fault, and 0xFFF is fetched from only where
memory reaches it. -/
def Obligations.JpSetsPcToItsAddress : Prop :=
  (∀ w : Word, w &&& 0xF000 = 0x1000 → decode w = .instr (.jp (w.extractLsb' 0 12))) ∧
  (∀ (s : State) (nnn : Addr12), ∃ t, exec (.jp nnn) s = .next t ∧ t.pc.toNat = nnn.toNat ∧
    UnchangedBut [] [.pc] s t ∧
    (s.params.memSize = .classic → nnn = 0xFFF → t.Ready →
      ∃ u, step t = .next u ∧ u.fault = some ⟨.outOfBoundsAccess, ⟨none, 0x0FFF⟩⟩)) ∧
  (∀ (s : State) (nnn : Addr12), s.Ready → s.frame = none → s.pc.toNat = nnn.toNat →
    s.fetch = some (encode (.jp nnn)) → ∀ k, GoodRun s k)

/-- 2NNN, 41_control_flow.md. `StackOverflow` exists only where STACK_LIMIT is set and is the spec's own decision D2. -/
def Obligations.CallPushesPcAndJumps : Prop :=
  (∀ w : Word, w &&& 0xF000 = 0x2000 → decode w = .instr (.call (w.extractLsb' 0 12))) ∧
  (∀ (s : State) (nnn : Addr12), s.params.stackLimit ≠ some s.stack.length →
    ∃ t, exec (.call nnn) s = .next t ∧ t.stack = s.stack ++ [s.pc] ∧ t.pc.toNat = nnn.toNat ∧
      UnchangedBut [] [.pc, .stack] s t) ∧
  (∀ (s : State) (nnn : Addr12) (a : Word), s.params.stackLimit = some s.stack.length → s.fault = none →
    s.pc = a + 2 → ∃ t, exec (.call nnn) s = .next t ∧
      t.fault = some ⟨.stackOverflow, ⟨some (encode (.call nnn)), a.toNat⟩⟩ ∧ UnchangedBut [] [.fault] s t)

/-- R123, with its corner case on the next fetch. -/
def Obligations.JpV0AddsV0ToItsAddress : Prop :=
  (∀ w : Word, w &&& 0xF000 = 0xB000 → decode w = .instr (.jpV0 (w.extractLsb' 0 12))) ∧
  ∀ (s : State) (nnn : Addr12), ∃ t, exec (.jpV0 nnn) s = .next t ∧
    t.pc.toNat = (s.readReg 0x0).toNat + nnn.toNat ∧ UnchangedBut [] [.pc] s t ∧
    (s.params.memSize = .classic → 0x0FFF ≤ (s.readReg 0x0).toNat + nnn.toNat → t.Ready →
      ∃ u, step t = .next u ∧ u.fault = some ⟨.outOfBoundsAccess, ⟨none, (s.readReg 0x0).toNat + nnn.toNat⟩⟩) ∧
    (s.params.memSize = .later → t.fetch ≠ none)

/-- 95_test_vectors.md S7: N calls one inside the other, then N returns, restore the PC that stood after the first call, and
the stack; one more return underflows if the stack was empty. -/
def Obligations.NestedCallsAndReturnsRestorePc : Prop :=
  ∀ s : State, s.params.stackLimit = none → s.fault = none → ∀ targets : List Addr12, targets ≠ [] →
    ∃ t, runInstrs (targets.map Instr.call ++ targets.map fun _ => Instr.ret) s = .next t ∧
      t.pc = s.pc ∧ t.stack = s.stack ∧ t.fault = none ∧
      (s.stack = [] → ∃ u m, exec .ret t = .next u ∧ u.fault = some m ∧ m.cause = .stackUnderflow)

/-! ## Skips -/

/-- R141. -/
def Obligations.SeImmSkipsWhenEqual : Prop :=
  (∀ w : Word, w &&& 0xF000 = 0x3000 → decode w = .instr (.seImm (nib1 w) (loByte w))) ∧
  ∀ (s : State) (x : Reg) (nn : Byte), ∃ t, exec (.seImm x nn) s = .next t ∧
    t.pc.toNat = (if s.readReg x = nn then (s.pc.toNat + 2) % 65536 else s.pc.toNat) ∧ UnchangedBut [] [.pc] s t

/-- R142. -/
def Obligations.SneImmSkipsWhenDifferent : Prop :=
  (∀ w : Word, w &&& 0xF000 = 0x4000 → decode w = .instr (.sneImm (nib1 w) (loByte w))) ∧
  ∀ (s : State) (x : Reg) (nn : Byte), ∃ t, exec (.sneImm x nn) s = .next t ∧
    t.pc.toNat = (if s.readReg x = nn then s.pc.toNat else (s.pc.toNat + 2) % 65536) ∧ UnchangedBut [] [.pc] s t

/-- R143. -/
def Obligations.SeRegSkipsWhenEqual : Prop :=
  (∀ w : Word, w &&& 0xF00F = 0x5000 → decode w = .instr (.seReg (nib1 w) (nib2 w))) ∧
  (∀ w : Word, w &&& 0xF000 = 0x5000 → nib3 w ≠ 0 → decode w = .unsupportedInstruction w) ∧
  ∀ (s : State) (x y : Reg), ∃ t, exec (.seReg x y) s = .next t ∧
    t.pc.toNat = (if s.readReg x = s.readReg y then (s.pc.toNat + 2) % 65536 else s.pc.toNat) ∧
    UnchangedBut [] [.pc] s t

/-- R144. -/
def Obligations.SneRegSkipsWhenDifferent : Prop :=
  (∀ w : Word, w &&& 0xF00F = 0x9000 → decode w = .instr (.sneReg (nib1 w) (nib2 w))) ∧
  (∀ w : Word, w &&& 0xF000 = 0x9000 → nib3 w ≠ 0 → decode w = .unsupportedInstruction w) ∧
  ∀ (s : State) (x y : Reg), ∃ t, exec (.sneReg x y) s = .next t ∧
    t.pc.toNat = (if s.readReg x = s.readReg y then s.pc.toNat else (s.pc.toNat + 2) % 65536) ∧
    UnchangedBut [] [.pc] s t

/-- EX9E, 42_skips.md. The port's answer is the free value `Config.keyDown s.draws` (log entry 2); the fault on a key index
above 15 is the spec's own decision D9. -/
def Obligations.SkpSkipsWhenKeyDown : Prop :=
  (∀ w : Word, w &&& 0xF0FF = 0xE09E → decode w = .instr (.skp (nib1 w))) ∧
  (∀ (s : State) (x : Reg), (s.readReg x).toNat ≤ 15 →
    ∃ t, exec (.skp x) s = .next t ∧ t.events = s.events ++ [.keydown (s.readReg x)] ∧ t.draws = s.draws + 1 ∧
      t.pc.toNat = (if Config.keyDown s.draws then (s.pc.toNat + 2) % 65536 else s.pc.toNat) ∧
      UnchangedBut [] [.pc, .events, .draws] s t) ∧
  (∀ (s : State) (x : Reg) (a : Word), 15 < (s.readReg x).toNat → s.fault = none → s.pc = a + 2 →
    ∃ t, exec (.skp x) s = .next t ∧
      t.fault = some ⟨.keyIndexOutOfRange, ⟨some (encode (.skp x)), a.toNat⟩⟩ ∧ UnchangedBut [] [.fault] s t)

/-- EXA1, 42_skips.md; as EX9E with the condition reversed (D9, log entry 2). -/
def Obligations.SknpSkipsWhenKeyUp : Prop :=
  (∀ w : Word, w &&& 0xF0FF = 0xE0A1 → decode w = .instr (.sknp (nib1 w))) ∧
  (∀ (s : State) (x : Reg), (s.readReg x).toNat ≤ 15 →
    ∃ t, exec (.sknp x) s = .next t ∧ t.events = s.events ++ [.keydown (s.readReg x)] ∧ t.draws = s.draws + 1 ∧
      t.pc.toNat = (if Config.keyDown s.draws then s.pc.toNat else (s.pc.toNat + 2) % 65536) ∧
      UnchangedBut [] [.pc, .events, .draws] s t) ∧
  (∀ (s : State) (x : Reg) (a : Word), 15 < (s.readReg x).toNat → s.fault = none → s.pc = a + 2 →
    ∃ t, exec (.sknp x) s = .next t ∧
      t.fault = some ⟨.keyIndexOutOfRange, ⟨some (encode (.sknp x)), a.toNat⟩⟩ ∧ UnchangedBut [] [.fault] s t)

/-! ## Register arithmetic and logic -/

/-- R162. -/
def Obligations.LdImmLoadsImmediate : Prop :=
  (∀ w : Word, w &&& 0xF000 = 0x6000 → decode w = .instr (.ldImm (nib1 w) (loByte w))) ∧
  ∀ (s : State) (x : Reg) (nn : Byte), ∃ t, exec (.ldImm x nn) s = .next t ∧ t.readReg x = nn ∧
    UnchangedBut [x] [] s t

/-- R163: no flag, so VF is unchanged unless it is the destination. -/
def Obligations.AddImmWrapsAndTouchesNoFlag : Prop :=
  (∀ w : Word, w &&& 0xF000 = 0x7000 → decode w = .instr (.addImm (nib1 w) (loByte w))) ∧
  ∀ (s : State) (x : Reg) (nn : Byte), ∃ t, exec (.addImm x nn) s = .next t ∧
    (t.readReg x).toNat = ((s.readReg x).toNat + nn.toNat) % 256 ∧ UnchangedBut [x] [] s t

/-- 8XY0 to 8XY3, 43_alu.md section 3. The destination VX is from general knowledge (93_implementation_defined.md G2); that
no flag is written is the spec's decision D4. -/
def Obligations.CopyAndLogicWriteVxOnly : Prop :=
  (∀ w : Word, (w &&& 0xF00F = 0x8000 → decode w = .instr (.ldReg (nib1 w) (nib2 w))) ∧
    (w &&& 0xF00F = 0x8001 → decode w = .instr (.orReg (nib1 w) (nib2 w))) ∧
    (w &&& 0xF00F = 0x8002 → decode w = .instr (.andReg (nib1 w) (nib2 w))) ∧
    (w &&& 0xF00F = 0x8003 → decode w = .instr (.xorReg (nib1 w) (nib2 w)))) ∧
  ∀ (s : State) (x y : Reg),
    (∃ t, exec (.ldReg x y) s = .next t ∧ t.readReg x = s.readReg y ∧ UnchangedBut [x] [] s t) ∧
    (∃ t, exec (.orReg x y) s = .next t ∧ UnchangedBut [x] [] s t ∧
      ∀ k, (t.readReg x).getLsbD k = ((s.readReg x).getLsbD k || (s.readReg y).getLsbD k)) ∧
    (∃ t, exec (.andReg x y) s = .next t ∧ UnchangedBut [x] [] s t ∧
      ∀ k, (t.readReg x).getLsbD k = ((s.readReg x).getLsbD k && (s.readReg y).getLsbD k)) ∧
    (∃ t, exec (.xorReg x y) s = .next t ∧ UnchangedBut [x] [] s t ∧
      ∀ k, (t.readReg x).getLsbD k = ((s.readReg x).getLsbD k ^^ (s.readReg y).getLsbD k))

/-- 8XY4, 43_alu.md. The destination VX is from general knowledge (G2); with X = 0xF the flag remains (D3). -/
def Obligations.AddRegAddsAndSetsCarry : Prop :=
  (∀ w : Word, w &&& 0xF00F = 0x8004 → decode w = .instr (.addReg (nib1 w) (nib2 w))) ∧
  ∀ (s : State) (x y : Reg), ∃ t, exec (.addReg x y) s = .next t ∧
    (x ≠ 0xF → (t.readReg x).toNat = ((s.readReg x).toNat + (s.readReg y).toNat) % 256) ∧
    (t.readReg 0xF).toNat = ((s.readReg x).toNat + (s.readReg y).toNat) / 256 ∧
    UnchangedBut [x, 0xF] [] s t

/-- 8XY5, 43_alu.md. The destination VX is from general knowledge (G2); with X = 0xF the flag remains (D3). -/
def Obligations.SubRegSubtractsAndSetsNotBorrow : Prop :=
  (∀ w : Word, w &&& 0xF00F = 0x8005 → decode w = .instr (.subReg (nib1 w) (nib2 w))) ∧
  ∀ (s : State) (x y : Reg), ∃ t, exec (.subReg x y) s = .next t ∧
    (x ≠ 0xF → ((t.readReg x).toNat : Int) = ((s.readReg x).toNat - (s.readReg y).toNat : Int) % 256) ∧
    t.readReg 0xF = (if (s.readReg x).toNat < (s.readReg y).toNat then 0 else 1) ∧
    UnchangedBut [x, 0xF] [] s t

/-- 8XY6, 43_alu.md: the source VY is shifted. With X = 0xF the flag remains (D3). -/
def Obligations.ShrShiftsVyRightIntoVx : Prop :=
  (∀ w : Word, w &&& 0xF00F = 0x8006 → decode w = .instr (.shrReg (nib1 w) (nib2 w))) ∧
  ∀ (s : State) (x y : Reg), ∃ t, exec (.shrReg x y) s = .next t ∧
    (x ≠ 0xF → ∀ k, (t.readReg x).getLsbD k = (s.readReg y).getLsbD (k + 1)) ∧
    t.readReg 0xF = (if (s.readReg y).getLsbD 0 then 1 else 0) ∧
    UnchangedBut [x, 0xF] [] s t

/-- 8XY7, 43_alu.md. With X = 0xF the flag remains (D3). -/
def Obligations.SubnSubtractsVxFromVy : Prop :=
  (∀ w : Word, w &&& 0xF00F = 0x8007 → decode w = .instr (.subnReg (nib1 w) (nib2 w))) ∧
  ∀ (s : State) (x y : Reg), ∃ t, exec (.subnReg x y) s = .next t ∧
    (x ≠ 0xF → ((t.readReg x).toNat : Int) = ((s.readReg y).toNat - (s.readReg x).toNat : Int) % 256) ∧
    t.readReg 0xF = (if (s.readReg y).toNat < (s.readReg x).toNat then 0 else 1) ∧
    UnchangedBut [x, 0xF] [] s t

/-- 8XYE, 43_alu.md: the source VY is shifted. With X = 0xF the flag remains (D3). -/
def Obligations.ShlShiftsVyLeftIntoVx : Prop :=
  (∀ w : Word, w &&& 0xF00F = 0x800E → decode w = .instr (.shlReg (nib1 w) (nib2 w))) ∧
  ∀ (s : State) (x y : Reg), ∃ t, exec (.shlReg x y) s = .next t ∧
    (x ≠ 0xF → (t.readReg x).toNat = (s.readReg y).toNat * 2 % 256) ∧
    t.readReg 0xF = (if (s.readReg y).getLsbD 7 then 1 else 0) ∧
    UnchangedBut [x, 0xF] [] s t

/-- CXNN, 43_alu.md: the byte is the free value `Config.randomByte s.draws` (D10, log entry 2). -/
def Obligations.RndMasksTheDrawnByte : Prop :=
  (∀ w : Word, w &&& 0xF000 = 0xC000 → decode w = .instr (.rnd (nib1 w) (loByte w))) ∧
  ∀ (s : State) (x : Reg) (nn : Byte), ∃ t, exec (.rnd x nn) s = .next t ∧
    (∀ k, (t.readReg x).getLsbD k = ((Config.randomByte s.draws).getLsbD k && nn.getLsbD k)) ∧
    t.events = s.events ++ [.byte] ∧ t.draws = s.draws + 1 ∧ UnchangedBut [x] [.events, .draws] s t

/-! ## Index register and block copy -/

/-- R200. -/
def Obligations.LdIndexLoadsItsAddress : Prop :=
  (∀ w : Word, w &&& 0xF000 = 0xA000 → decode w = .instr (.ldIndex (w.extractLsb' 0 12))) ∧
  ∀ (s : State) (nnn : Addr12), ∃ t, exec (.ldIndex nnn) s = .next t ∧ t.index.toNat = nnn.toNat ∧
    UnchangedBut [] [.index] s t

/-- FX1E, 44_index_memory.md. The wrap modulo 65536 and the untouched VF are the spec's decision D5. -/
def Obligations.AddIndexWrapsAndTouchesNoFlag : Prop :=
  (∀ w : Word, w &&& 0xF0FF = 0xF01E → decode w = .instr (.addIndex (nib1 w))) ∧
  ∀ (s : State) (x : Reg), ∃ t, exec (.addIndex x) s = .next t ∧
    t.index.toNat = (s.index.toNat + (s.readReg x).toNat) % 65536 ∧ UnchangedBut [] [.index] s t

/-- FX55, 44_index_memory.md: X + 1 bytes at I. The unchanged I is the spec's decision D6, the range test its D7, the recorded
info its D13. -/
def Obligations.StoreRegsCopiesRegistersToMemory : Prop :=
  (∀ w : Word, w &&& 0xF0FF = 0xF055 → decode w = .instr (.storeRegs (nib1 w))) ∧
  (∀ (s : State) (x : Reg), Memory.wf s.mem → s.dataAddr + (x.toNat + 1) ≤ s.params.memSize.bytes →
    ∃ t, exec (.storeRegs x) s = .next t ∧
      (∀ r : Reg, r.toNat ≤ x.toNat → Memory.read t.mem (s.dataAddr + r.toNat) = s.readReg r) ∧
      (∀ k, (k < s.dataAddr ∨ s.dataAddr + x.toNat < k) → Memory.read t.mem k = Memory.read s.mem k) ∧
      UnchangedBut [] [.memory] s t) ∧
  (∀ (s : State) (x : Reg), s.fault = none → s.params.memSize.bytes < s.dataAddr + (x.toNat + 1) →
    ∃ t, exec (.storeRegs x) s = .next t ∧
      t.fault = some ⟨.outOfBoundsAccess, ⟨some (encode (.storeRegs x)), s.index.toNat⟩⟩ ∧
      UnchangedBut [] [.fault] s t)

/-- FX65, 44_index_memory.md: V0..VX from the X + 1 bytes at I (D6, D7, D13 as FX55). -/
def Obligations.LoadRegsCopiesMemoryToRegisters : Prop :=
  (∀ w : Word, w &&& 0xF0FF = 0xF065 → decode w = .instr (.loadRegs (nib1 w))) ∧
  (∀ (s : State) (x : Reg), s.dataAddr + (x.toNat + 1) ≤ s.params.memSize.bytes →
    ∃ t, exec (.loadRegs x) s = .next t ∧
      (∀ r : Reg, t.readReg r =
        if r.toNat ≤ x.toNat then Memory.read s.mem (s.index.toNat + r.toNat) else s.readReg r) ∧
      ∀ p, Part.same p s t) ∧
  (∀ (s : State) (x : Reg), s.fault = none → s.params.memSize.bytes < s.dataAddr + (x.toNat + 1) →
    ∃ t, exec (.loadRegs x) s = .next t ∧
      t.fault = some ⟨.outOfBoundsAccess, ⟨some (encode (.loadRegs x)), s.index.toNat⟩⟩ ∧
      UnchangedBut [] [.fault] s t)

/-! ## Timers and the key wait -/

/-- FX07, FX15, FX18, 45_timers_input.md. Which instruction reads or writes which timer is from general knowledge
(93_implementation_defined.md G3). -/
def Obligations.TimerAccessCopiesOneByte : Prop :=
  (∀ w : Word, (w &&& 0xF0FF = 0xF007 → decode w = .instr (.ldFromDelay (nib1 w))) ∧
    (w &&& 0xF0FF = 0xF015 → decode w = .instr (.ldDelay (nib1 w))) ∧
    (w &&& 0xF0FF = 0xF018 → decode w = .instr (.ldSound (nib1 w)))) ∧
  ∀ (s : State) (x : Reg),
    (∃ t, exec (.ldFromDelay x) s = .next t ∧ t.readReg x = s.delay ∧ UnchangedBut [x] [] s t) ∧
    (∃ t, exec (.ldDelay x) s = .next t ∧ t.delay = s.readReg x ∧ UnchangedBut [] [.delay] s t) ∧
    (∃ t, exec (.ldSound x) s = .next t ∧ t.sound = s.readReg x ∧ UnchangedBut [] [.sound] s t)

/-- FX0A where the port answers at once (the model's `wait` is `some 0`, log entry 3), 45_timers_input.md. The answer is the
free value `Config.keyReply s.draws`; the byte is unchecked and PC stays past FX0A on a cancellation (D20). -/
def Obligations.WaitKeyAnsweredWritesKeyOrHalts : Prop :=
  (∀ w : Word, w &&& 0xF0FF = 0xF00A → decode w = .instr (.waitKey (nib1 w))) ∧
  ∀ (s : State) (x : Reg), s.wait = some 0 →
    ∃ t, exec (.waitKey x) s = .next t ∧ t.events = s.events ++ [.key] ∧ t.pending = none ∧
      t.draws = s.draws + 1 ∧
      match Config.keyReply s.draws with
      | some k => t.readReg x = k ∧ UnchangedBut [x] [.events, .pending, .draws, .wait] s t
      | none => t.halt = true ∧ UnchangedBut [] [.halt, .events, .pending, .draws, .wait] s t

/-- FX0A where the port has not answered (log entry 3), 60_exceptions.md section 6: the request is sent once and held, nothing
changes while it is held, and the answer ends the wait and the cycle. In a frame a late cancellation then settles the frame as
HALT_POLICY says (the spec's decision D11). That no cycle has halted while its key request is held is part of the invariant
(`InvariantIsKept`); outside a frame it is not needed. -/
def Obligations.WaitKeyHoldsUntilAnswered : Prop :=
  (∀ (s : State) (x : Reg), s.wait ≠ some 0 →
    ∃ t, exec (.waitKey x) s = .next t ∧ t.events = s.events ++ [.key] ∧ t.pending = some (.key x) ∧
      UnchangedBut [] [.events, .pending, .wait] s t) ∧
  (∀ (s : State) (p : Pending), s.fault = none → s.pending = some p → s.wait ≠ some 0 →
    ∃ t, step s = .next t ∧ UnchangedBut [] [.wait] s t ∧
      (s.wait = none → t.wait = none) ∧ ∀ n, s.wait = some (n + 1) → t.wait = some n) ∧
  (∀ (s : State) (x : Reg), s.fault = none → s.pending = some (.key x) → s.wait = some 0 →
    (s.frame = none ∨ s.halt = false) →
    ∃ t, step s = .next t ∧ t.pending = none ∧
      match Config.keyReply s.draws with
      | some k => t.readReg x = k ∧ UnchangedBut [x] [.pending, .draws, .wait] s t
      | none => t.halt = true ∧
        match s.frame, s.params.haltPolicy with
        | none, _ => UnchangedBut [] [.halt, .pending, .draws, .wait] s t
        | some _, .stopNow => t.frame = none ∧ t.stop = some true ∧
          UnchangedBut [] [.halt, .pending, .draws, .wait, .frame, .stop] s t
        | some f, .finishBatch => t.frame = some ⟨f.left, true⟩ ∧
          UnchangedBut [] [.halt, .pending, .draws, .wait, .frame] s t)

/-! ## Decoding -/

/-- 95_test_vectors.md S8: every field of every instruction survives encoding and decoding. -/
def Obligations.DecodeEncodeRoundTrip : Prop :=
  ∀ i : Instr, decode (encode i) = .instr i ∧
    ∀ rest, decodeBytes (hiByte (encode i) :: loByte (encode i) :: rest) = .instr i rest

/-- A word has one meaning: it is the encoding of the instruction it decodes to (30_encoding.md section 1). -/
def Obligations.DecodedWordIsItsEncoding : Prop :=
  ∀ (w : Word) (i : Instr), decode w = .instr i → encode i = w

/-- 30_encoding.md section 3: the words that decode to nothing are exactly the six classes listed there. -/
def Obligations.IllegalWordsAreTheSixClasses : Prop :=
  ∀ w : Word, decode w = .unsupportedInstruction w ↔
    (nib0 w = 0x0 ∧ w ≠ 0x00E0 ∧ w ≠ 0x00EE) ∨
    (nib0 w = 0x5 ∧ nib3 w ≠ 0) ∨
    (nib0 w = 0x8 ∧ nib3 w ∈ [0x8, 0x9, 0xA, 0xB, 0xC, 0xD, 0xF]) ∨
    (nib0 w = 0x9 ∧ nib3 w ≠ 0) ∨
    (nib0 w = 0xE ∧ loByte w ∉ [0x9E, 0xA1]) ∨
    (nib0 w = 0xF ∧ loByte w ∉ [0x07, 0x0A, 0x15, 0x18, 0x1E, 0x55, 0x65])

/-- R85, for any table, and for the block's own. -/
def Obligations.FirstMatchWins : Prop :=
  (∀ (H : Type) (before after : List (Pattern × H)) (p : Pattern) (h : H) (w : Word),
    (∀ row ∈ before, row.1.matchesWord w = false) → p.matchesWord w = true →
    decodeTable (before ++ (p, h) :: after) w = some (h, p.field w)) ∧
  (∀ (H : Type) (t : List (Pattern × H)) (w : Word),
    (∀ row ∈ t, row.1.matchesWord w = false) → decodeTable t w = none) ∧
  (∀ w : Word, (∀ row ∈ opcodeTable, row.1.matchesWord w = false) → decode w = .unsupportedInstruction w)

/-- 30_encoding.md section 1, for every character and every text of four: which characters are literal and their values (that
lower case is literal too is the spec's decision D24), when a pattern matches, and what a field is. -/
def Obligations.PatternsMatchLiteralsAndGatherFields : Prop :=
  (∀ (c : Char) (v : Nibble), hexVal c = some v ↔
    ['0', '1', '2', '3', '4', '5', '6', '7', '8', '9', 'A', 'B', 'C', 'D', 'E', 'F'][v.toNat]? = some c ∨
    ['0', '1', '2', '3', '4', '5', '6', '7', '8', '9', 'a', 'b', 'c', 'd', 'e', 'f'][v.toNat]? = some c) ∧
  ∀ (a b c d : Char) (w : Word), ∃ p, readPattern [a, b, c, d] = some p ∧
    (p.matchesWord w = true ↔
      (∀ v, hexVal a = some v → v = nib0 w) ∧ (∀ v, hexVal b = some v → v = nib1 w) ∧
      (∀ v, hexVal c = some v → v = nib2 w) ∧ (∀ v, hexVal d = some v → v = nib3 w)) ∧
    (∀ letter, hexVal letter = none →
      p.field w letter = [(a, nib0 w), (b, nib1 w), (c, nib2 w), (d, nib3 w)].foldl
        (fun acc q => if q.1 = letter then acc * 16 + q.2.toNat else acc) 0 ∧
      p.field w letter < 16 ^ [a, b, c, d].count letter) ∧
    ∀ letter, letter ∉ [a, b, c, d] → p.field w letter = 0

/-- R84: a table with a pattern whose length is not 4 is rejected, any other is built, the block's own among them. -/
def Obligations.MalformedTablesAreRejected : Prop :=
  (∀ (H : Type) (t : List (List Char × H)), buildTable t = none ↔ ∃ row ∈ t, row.1.length ≠ 4) ∧
  (∀ row ∈ opcodeRows, row.1.length = 4) ∧ buildTable opcodeRows = some opcodeTable

/-- 30_encoding.md section 2: no word matches two rows of the table. -/
def Obligations.OpcodePatternsAreDisjoint : Prop :=
  opcodeTable.Pairwise fun p q => ∀ w : Word, ¬ (p.1.matchesWord w = true ∧ q.1.matchesWord w = true)

/-- Words written out from 30_encoding.md and 95_test_vectors.md, section 2.1, decode to what they stand for. -/
def Obligations.SampleWordsDecodeAsListed : Prop :=
  decode 0x1ABC = .instr (.jp 0xABC) ∧ decode 0x3A5F = .instr (.seImm 0xA 0x5F) ∧
  decode 0x8AB6 = .instr (.shrReg 0xA 0xB) ∧ decode 0xD12F = .instr (.drw 0x1 0x2 0xF) ∧
  decode 0xE19E = .instr (.skp 0x1) ∧ decode 0xF10A = .instr (.waitKey 0x1) ∧ decode 0xF065 = .instr (.loadRegs 0x0) ∧
  decode 0x8AB8 = .unsupportedInstruction 0x8AB8 ∧ decode 0xF129 = .unsupportedInstruction 0xF129

/-! ## The cycle -/

/-- 30_encoding.md section 4. The step of a ready block fetches at PC, advances PC by 2 modulo 65536 and runs the decoded
instruction; around it stands what the cycle means for the frame it runs in (`beginCycle`, `settleFrame`; the identity outside
a frame but for the cleared halt). Halt is set by FX0A alone, where the port cancels; an answer that comes later is
`WaitKeyHoldsUntilAnswered`. A faulted block runs no cycle. The model's own choices here: the clause on FX0A's halt reads the
fields `draws` (log entry 2) and `wait` (log entry 3); halt is a field, cleared as a cycle begins (log entry 9); a fault is
taken as a next state with the mark set (log entry 12). What a fault records is the spec's decision D13. -/
def Obligations.StepRunsTheDecodedInstruction : Prop :=
  (∀ (s : State) (w : Word) (i : Instr), s.Ready → s.fetch = some w → decode w = .instr i →
    step s = mapNext State.settleFrame (exec i s.atDispatch)) ∧
  (∀ (s : State) (w : Word), s.fetch = some w → s.pc.toNat + 2 ≤ s.params.memSize.bytes ∧
    w.toNat = (Memory.read s.mem s.pc.toNat).toNat * 256 + (Memory.read s.mem (s.pc.toNat + 1)).toNat) ∧
  (∀ s : State, s.atDispatch.pc.toNat = (s.pc.toNat + 2) % 65536 ∧ s.atDispatch.halt = false ∧
    UnchangedBut [] [.pc, .halt, .frame] s s.atDispatch) ∧
  (∀ s : State, s.Ready → s.fetch = none → ∃ t, step s = .next t ∧
    t.fault = some ⟨.outOfBoundsAccess, ⟨none, s.pc.toNat⟩⟩ ∧ t.pc = s.pc) ∧
  (∀ (s : State) (w : Word), s.Ready → s.fetch = some w → decode w = .unsupportedInstruction w →
    ∃ t, step s = .next t ∧ t.fault = some ⟨.unsupportedInstruction, ⟨some w, s.pc.toNat⟩⟩) ∧
  (∀ (i : Instr) (s t : State), (∀ x, i ≠ .waitKey x) → exec i s = .next t → t.halt = s.halt) ∧
  (∀ (s : State) (x : Reg), ∃ t, exec (.waitKey x) s = .next t ∧
    t.halt = (s.halt || (decide (s.wait = some 0) && (Config.keyReply s.draws).isNone))) ∧
  (∀ (s : State) (m : FaultMark), s.fault = some m → s.calls = [] → ∀ t, step s ≠ .next t)

/-- 30_encoding.md section 4: where the fetch faults, for either capacity, and what is left (a consequence the spec marks
derived, with its decision D7 on the last byte). -/
def Obligations.FetchFaultsAtTheEndOfMemory : Prop :=
  (∀ s : State, s.params.memSize = .classic → (s.fetch = none ↔ 0x0FFF ≤ s.pc.toNat)) ∧
  (∀ s : State, s.params.memSize = .later → (s.fetch = none ↔ s.pc = 0xFFFF)) ∧
  (∀ s : State, s.Ready → s.frame = none → s.fetch = none → ∃ t, step s = .next t ∧
    t.fault = some ⟨.outOfBoundsAccess, ⟨none, s.pc.toNat⟩⟩ ∧ UnchangedBut [] [.fault, .halt] s t)

/-- 30_encoding.md sections 1 and 4: the raw word and the fetch address are recorded, and the block stops. What is recorded and
what is left (PC advanced, all else unchanged) is the spec's decision D13; that the fault is a next state, and the step after it
the stop, is log entry 12; the cleared halt is log entry 9. -/
def Obligations.IllegalWordFaultsWithItsWord : Prop :=
  ∀ (s : State) (w : Word), s.Ready → s.frame = none → s.fetch = some w →
    (∀ row ∈ opcodeTable, row.1.matchesWord w = false) →
    ∃ t, step s = .next t ∧ t.fault = some ⟨.unsupportedInstruction, ⟨some w, s.pc.toNat⟩⟩ ∧
      t.pc.toNat = (s.pc.toNat + 2) % 65536 ∧ UnchangedBut [] [.pc, .fault, .halt] s t ∧
      step t = .fault (.blockFaulted ⟨.unsupportedInstruction, ⟨some w, s.pc.toNat⟩⟩)

/-! ## Memory -/

/-- R55; the answer `none` stands for the raise of `OutOfBoundsAccess` at `a`. -/
def Obligations.MemReadChecksBoundsAndReadsBigEndian : Prop :=
  ∀ (s : State) (a : Nat),
    (a + 1 ≤ s.params.memSize.bytes → s.memRead8 a = some (Memory.read s.mem a)) ∧
    (s.params.memSize.bytes < a + 1 → s.memRead8 a = none) ∧
    (a + 2 ≤ s.params.memSize.bytes → ∃ w, s.memRead16 a = some w ∧
      w.extractLsb' 8 8 = Memory.read s.mem a ∧ w.extractLsb' 0 8 = Memory.read s.mem (a + 1)) ∧
    (s.params.memSize.bytes < a + 2 → s.memRead16 a = none)

/-- R58, on a memory in canonical form (`InvariantIsKept`); `none` stands for the raise, with nothing written. -/
def Obligations.MemSliceWriteWritesExactlyItsBytes : Prop :=
  ∀ (s : State) (a : Nat) (bs : List Byte), Memory.wf s.mem →
    (a + bs.length ≤ s.params.memSize.bytes → ∃ t, s.memSliceWrite a bs = some t ∧
      (∀ k, (h : k < bs.length) → Memory.read t.mem (a + k) = bs[k]) ∧
      (∀ k, (k < a ∨ a + bs.length ≤ k) → Memory.read t.mem k = Memory.read s.mem k) ∧
      Memory.wf t.mem ∧ UnchangedBut [] [.memory] s t) ∧
    (s.params.memSize.bytes < a + bs.length → s.memSliceWrite a bs = none)

/-- 20_memory.md section 6: the word at PC that FX55 overwrites is the word the next fetch reads. -/
def Obligations.FetchSeesStoredBytes : Prop :=
  ∀ (s t : State) (x r : Reg), Memory.wf s.mem → exec (.storeRegs x) s = .next t →
    s.dataAddr + (x.toNat + 1) ≤ s.params.memSize.bytes →
    r.toNat + 1 ≤ x.toNat → s.pc.toNat = s.dataAddr + r.toNat →
    t.fetch = some (wordOf (s.readReg r) (s.readReg (r + 1)))

/-! ## Faults -/

/-- 60_exceptions.md R245's words (the spec marks them derived, with its decision D13): an instruction that faults changes
nothing but the mark, and sends no request. -/
def Obligations.FaultsArePrecise : Prop :=
  ∀ (i : Instr) (s t : State), exec i s = .next t → s.fault = none → t.fault ≠ none →
    UnchangedBut [] [.fault] s t

/-- 60_exceptions.md R242's table (the spec marks it derived): which instruction can raise which fault. -/
def Obligations.OnlyTheListedInstructionsFault : Prop :=
  ∀ (i : Instr) (s t : State) (m : FaultMark), exec i s = .next t → s.fault = none → t.fault = some m →
    (i = .ret ∧ m.cause = .stackUnderflow ∧ s.stack = []) ∨
    (∃ nnn, i = .call nnn ∧ m.cause = .stackOverflow ∧ s.params.stackLimit ≠ none) ∨
    ((∃ x y n, i = .drw x y n) ∧ m.cause = .outOfBoundsAccess) ∨
    ((∃ x, i = .storeRegs x ∨ i = .loadRegs x) ∧ m.cause = .outOfBoundsAccess) ∨
    (∃ x, (i = .skp x ∨ i = .sknp x) ∧ m.cause = .keyIndexOutOfRange ∧ 15 < (s.readReg x).toNat)

/-- No instruction stops the model: every one answers a next state, in every state. That an instruction which faults, or whose
key request is still held, answers a next state too is the model's choice (log entries 12 and 3). -/
def Obligations.EveryInstructionAnswersANextState : Prop :=
  ∀ (i : Instr) (s : State), ∃ t, exec i s = .next t

/-- 60_exceptions.md section 1: the mark is kept until the host's reset. The model's own choices here: the stop of the step after
the fault and the refusal of `frame` (log entry 12), and the `load` on a faulted block, the only case of the clause on any other
step (log entry 8). -/
def Obligations.FaultIsFatalUntilReset : Prop :=
  (∀ (s : State) (c : Cause) (o : Option Word) (a : Nat), s.fault = none →
    (s.raise c o a).fault = some ⟨c, ⟨o, a⟩⟩) ∧
  (∀ (s : State) (m : FaultMark), s.fault = some m → s.calls = [] → step s = .fault (.blockFaulted m)) ∧
  (∀ (s : State) (m : FaultMark) (n : Nat) (cs : List HostCall), s.fault = some m → s.calls = .frame n :: cs →
    step s = .refused .frameOnFaultedBlock) ∧
  (∀ (s : State) (cs : List HostCall), s.fault ≠ none → s.calls = .reset :: cs →
    ∃ t, step s = .next t ∧ t.fault = none) ∧
  (∀ (s t : State) (m : FaultMark), s.fault = some m → step s = .next t → (∀ cs, s.calls ≠ .reset :: cs) →
    t.fault = some m ∧ UnchangedBut [] [.memory, .calls] s t) ∧
  (∀ (s : State) (k : Nat), s.fault ≠ none → ¬ GoodRun s k)

/-! ## Invariants and whole-machine rules -/

/-- Every step keeps the invariant, from every state that has it. -/
def Obligations.InvariantIsKept : Prop :=
  ∀ s t : State, s.Inv → step s = .next t → t.Inv

/-- The invariant holds at reset, for every set of parameters R7 allows. -/
def Obligations.InvariantHoldsAtReset : Prop :=
  State.reset.Inv ∧ ∀ p : Params, p.wellFormed = true → (State.resetWith p).Inv

/-- 10_state.md section 8: the construction state, under any parameters. I = 0 and no fault mark are the spec's decision D17; the
parameters as a field are log entry 1. -/
def Obligations.ConstructionStateIsTheDefault : Prop :=
  State.reset = State.resetWith Params.default ∧
  ∀ p : Params, (State.resetWith p).delay = 0 ∧ (State.resetWith p).sound = 0 ∧ (State.resetWith p).stack = [] ∧
    (∀ r, (State.resetWith p).readReg r = 0) ∧ (State.resetWith p).pc = 0x0200 ∧
    (State.resetWith p).index = 0 ∧ (State.resetWith p).fault = none ∧
    ∀ a, Memory.read (State.resetWith p).mem a = 0

/-- The host's reset, 70_reset_and_hazards.md section 1: every piece of state at its construction value, I, memory and the
fault mark by the spec's decision D17; no request is sent. That the parameters, the history and the model's own fields stay is
the model's choice (log entry 7). -/
def Obligations.HostResetRebuildsTheDefaults : Prop :=
  ∀ (s : State) (cs : List HostCall), s.pending = none → s.frame = none → s.calls = .reset :: cs →
    ∃ t, step s = .next t ∧ (∀ r, t.readReg r = 0) ∧ t.index = 0 ∧ t.pc = 0x0200 ∧ t.stack = [] ∧ t.delay = 0 ∧
      t.sound = 0 ∧ (∀ a, Memory.read t.mem a = 0) ∧ t.fault = none ∧ t.frame = none ∧ t.pending = none ∧
      t.params = s.params ∧ t.events = s.events ∧ t.calls = cs ∧ t.draws = s.draws ∧ t.wait = s.wait

/-- The special registers, the stack, the timers and memory each have only the writers 10_state.md and 20_memory.md name, and
no instruction changes the parameters, the frame in progress or what it returned. That FX55 and FX65 leave I is the spec's
decision D6 (log entry 10); that FX15 alone writes DT and FX18 alone ST is from general knowledge (G3, log entry 11). -/
def Obligations.SpecialStateHasOnlyItsWriters : Prop :=
  ∀ (i : Instr) (s t : State), exec i s = .next t →
    (t.index ≠ s.index → (∃ nnn, i = .ldIndex nnn) ∨ ∃ x, i = .addIndex x) ∧
    (t.stack ≠ s.stack → (∃ nnn, i = .call nnn) ∨ i = .ret) ∧
    (t.delay ≠ s.delay → ∃ x, i = .ldDelay x) ∧
    (t.sound ≠ s.sound → ∃ x, i = .ldSound x) ∧
    (t.mem ≠ s.mem → ∃ x, i = .storeRegs x) ∧
    t.params = s.params ∧ t.calls = s.calls ∧ t.frame = s.frame ∧ t.stop = s.stop

/-- 10_state.md sections 4 and 5: no instruction but 2NNN and 00EE depends on the call stack or reaches it, and none but FX18
depends on the sound timer or reaches it. That FX18 is the one that reaches it is from general knowledge (G3, log entry 11). -/
def Obligations.StackAndSoundTimerAreHidden : Prop :=
  (∀ (i : Instr) (s : State) (l : List Word), (∀ nnn, i ≠ .call nnn) → i ≠ .ret →
    exec i { s with stack := l } = mapNext (fun t => { t with stack := l }) (exec i s)) ∧
  (∀ (i : Instr) (s : State) (v : Byte), (∀ x, i ≠ .ldSound x) →
    exec i { s with sound := v } = mapNext (fun t => { t with sound := v }) (exec i s))

/-- 10_state.md section 1: VF changes only by the six flag writers, or as the destination of an instruction that names it.
That 8XY0 to 8XY3 and FX1E leave it is the spec's decisions D4 and D5 (log entry 10); that 8XY0 to 8XY5 write VX and not VY, and
that FX07 writes VX while FX15 and FX18 do not, is from general knowledge (G2, G3, log entry 11). -/
def Obligations.FlagRegisterHasOnlyItsWriters : Prop :=
  ∀ (i : Instr) (s t : State), exec i s = .next t → t.readReg 0xF ≠ s.readReg 0xF →
    (∃ x y n, i = .drw x y n ∨ i = .addReg x y ∨ i = .subReg x y ∨ i = .shrReg x y ∨ i = .subnReg x y ∨
      i = .shlReg x y) ∨
    (∃ y nn, i = .ldImm 0xF nn ∨ i = .addImm 0xF nn ∨ i = .rnd 0xF nn ∨ i = .ldReg 0xF y ∨ i = .orReg 0xF y ∨
      i = .andReg 0xF y ∨ i = .xorReg 0xF y ∨ i = .ldFromDelay 0xF ∨ i = .waitKey 0xF ∨ i = .loadRegs 0xF)

/-- 20_memory.md section 5, over whole steps: memory changes only by FX55, or in a step that makes the host's `load` or its
reset, and it is never resized. The zero-filling reset is the spec's decision D17; the host's calls as a list are log entry 4, a
`load` on a faulted block is log entry 8. -/
def Obligations.MemoryChangesOnlyByStoreLoadOrReset : Prop :=
  ∀ s t : State, step s = .next t →
    t.params = s.params ∧
    (t.mem ≠ s.mem →
      (s.Ready ∧ ∃ w x, s.fetch = some w ∧ decode w = .instr (.storeRegs x)) ∨
      (∃ a bs cs, s.Makes (.load a bs) cs ∧ t.calls = cs) ∨ ∃ cs, s.Makes .reset cs ∧ t.calls = cs)

/-- 60_exceptions.md section 5: the history of requests is never rewritten, and a step adds at most two requests to it. That the
host's reset keeps it is log entry 7; that a step sends no more than two is the model's grain of a step (log entries 3 and
4). -/
def Obligations.RequestHistoryOnlyGrows : Prop :=
  ∀ s t : State, step s = .next t → ∃ new, t.events = s.events ++ new ∧ new.length ≤ 2

/-! ## The frame loop and the host's calls -/

/-- 60_exceptions.md section 4. A step that changes DT makes the host's `frame` call, or runs FX15, or makes the host's `reset`,
which rebuilds DT as it does all state (70_reset_and_hazards.md section 1); a call that only waits its turn is none of these.
That FX15 is DT's writer is from general knowledge (G3, log entry 11); the host's calls as a list, which `State.Makes` reads,
are the model's choice (log entry 4). -/
def Obligations.DelayTimerCountsFrames : Prop :=
  (∀ (s : State) (n : Nat) (cs : List HostCall), s.fault = none → s.pending = none → s.frame = none →
    s.calls = .frame n :: cs → ∃ t, step s = .next t ∧ t.delay.toNat = s.delay.toNat - 1 ∧
      t.frame = some { left := n, halted := false }) ∧
  (∀ s t : State, step s = .next t → t.delay ≠ s.delay →
    (∃ n cs, s.Makes (.frame n) cs ∧ t.calls = cs) ∨ (∃ cs, s.Makes .reset cs ∧ t.calls = cs) ∨
    (s.Ready ∧ ∃ w x, s.fetch = some w ∧ decode w = .instr (.ldDelay x)))

/-- R253. -/
def Obligations.FrameStartCountsSoundTimerAndBuzzes : Prop :=
  ∀ (s : State) (n : Nat) (cs : List HostCall), s.fault = none → s.pending = none → s.frame = none →
    s.calls = .frame n :: cs → ∃ t, step s = .next t ∧
      t.sound.toNat = s.sound.toNat - 1 ∧
      (s.sound.toNat ≠ 0 → t.events = s.events ++ [.buzz true]) ∧
      (s.sound.toNat = 0 → t.events = s.events ++ [.buzz false]) ∧
      UnchangedBut [] [.delay, .sound, .frame, .stop, .events, .calls] s t

/-- 60_exceptions.md section 4: the end of a frame by `present` and `pump`, the pump answered at once, not at once, or after a
wait (log entry 3); by a fault (the spec's decision D22); by a halt under either policy (its D11); and the batch's count
otherwise. -/
def Obligations.FrameEndsByPumpHaltOrFault : Prop :=
  (∀ (s : State) (h : Bool), s.fault = none → s.pending = none → s.frame = some ⟨0, h⟩ → s.wait = some 0 →
    ∃ t, step s = .next t ∧ t.frame = none ∧ t.stop = some (h || Config.pumpQuit s.draws) ∧
      t.events = s.events ++ [.present, .pump] ∧
      UnchangedBut [] [.frame, .stop, .pending, .events, .draws, .wait] s t) ∧
  (∀ (s : State) (h : Bool), s.fault = none → s.pending = none → s.frame = some ⟨0, h⟩ → s.wait ≠ some 0 →
    ∃ t, step s = .next t ∧ t.pending = some .pump ∧ t.events = s.events ++ [.present, .pump] ∧
      UnchangedBut [] [.pending, .events, .wait] s t) ∧
  (∀ (s : State) (k : Nat) (h : Bool), s.fault = none → s.pending = some .pump → s.frame = some ⟨k, h⟩ →
    s.wait = some 0 →
    ∃ t, step s = .next t ∧ t.frame = none ∧ t.pending = none ∧ t.stop = some (h || Config.pumpQuit s.draws) ∧
      UnchangedBut [] [.frame, .stop, .pending, .draws, .wait] s t) ∧
  (∀ (s u : State) (k : Nat) (h : Bool), s.Ready → s.frame = some ⟨k + 1, h⟩ → cycle s.beginCycle = .next u →
    u.pending = none → u.frame = some ⟨k, h⟩ ∧
      step s = .next (if u.fault ≠ none then { u with frame := none }
        else if u.halt = true ∧ u.params.haltPolicy = .stopNow then { u with frame := none, stop := some true }
        else if u.halt = true then { u with frame := some ⟨k, true⟩ }
        else u))

/-- The host's `load`, 70_reset_and_hazards.md section 2, on a memory in canonical form; the fault out of range is the spec's
decision D21. -/
def Obligations.HostLoadWritesItsBytesOrFaults : Prop :=
  (∀ (s : State) (a : Nat) (bs : List Byte) (cs : List HostCall), Memory.wf s.mem → s.fault = none →
    s.pending = none → s.frame = none → s.calls = .load a bs :: cs → a + bs.length ≤ s.params.memSize.bytes →
    ∃ t, step s = .next t ∧ (∀ k, (h : k < bs.length) → Memory.read t.mem (a + k) = bs[k]) ∧
      (∀ k, (k < a ∨ a + bs.length ≤ k) → Memory.read t.mem k = Memory.read s.mem k) ∧
      UnchangedBut [] [.memory, .calls] s t) ∧
  (∀ (s : State) (a : Nat) (bs : List Byte) (cs : List HostCall), s.fault = none → s.pending = none →
    s.frame = none → s.calls = .load a bs :: cs → s.params.memSize.bytes < a + bs.length →
    ∃ t, step s = .next t ∧ t.fault = some ⟨.outOfBoundsAccess, ⟨none, a⟩⟩ ∧
      UnchangedBut [] [.fault, .calls] s t)
end

