-- ==== Sys2Proof/Laws/Decode.lean ====
section
/-! SUPPORT. The decoder: the opcode table is well formed, the fields it extracts are bit fields of the word, and decoding by
the table (30_encoding.md R85) equals a direct match on the nibbles (R91). -/

namespace Sys2Proof

/-! ## Nibbles of a word -/

theorem nib0_toNat (w : Word) : (nib0 w).toNat = w.toNat / 4096 := by
  have := w.isLt
  simp [nib0, BitVec.extractLsb'_toNat, Nat.shiftRight_eq_div_pow]; omega

theorem nib1_toNat (w : Word) : (nib1 w).toNat = w.toNat / 256 % 16 := by
  simp [nib1, BitVec.extractLsb'_toNat, Nat.shiftRight_eq_div_pow]

theorem nib2_toNat (w : Word) : (nib2 w).toNat = w.toNat / 16 % 16 := by
  simp [nib2, BitVec.extractLsb'_toNat, Nat.shiftRight_eq_div_pow]

theorem nib3_toNat (w : Word) : (nib3 w).toNat = w.toNat % 16 := by
  simp [nib3, BitVec.extractLsb'_toNat]

theorem loByte_toNat (w : Word) : (loByte w).toNat = w.toNat % 256 := by
  simp [loByte, BitVec.extractLsb'_toNat]

theorem hiByte_toNat (w : Word) : (hiByte w).toNat = w.toNat / 256 := by
  have := w.isLt
  simp [hiByte, BitVec.extractLsb'_toNat, Nat.shiftRight_eq_div_pow]; omega

theorem wordOf_toNat (hi lo : Byte) : (wordOf hi lo).toNat = hi.toNat * 256 + lo.toNat := by
  have h : (hi ++ lo : BitVec (8 + 8)).toNat = hi.toNat * 256 + lo.toNat := by
    rw [BitVec.toNat_append, ← Nat.shiftLeft_add_eq_or_of_lt lo.isLt, Nat.shiftLeft_eq]
  exact h

/-- The two bytes of a word give the word back (R52). -/
@[simp] theorem wordOf_hiByte_loByte (w : Word) : wordOf (hiByte w) (loByte w) = w := by
  apply BitVec.eq_of_toNat_eq
  rw [wordOf_toNat, hiByte_toNat, loByte_toNat]; omega

@[simp] theorem hiByte_wordOf (hi lo : Byte) : hiByte (wordOf hi lo) = hi := by
  apply BitVec.eq_of_toNat_eq
  have := lo.isLt
  rw [hiByte_toNat, wordOf_toNat]; omega

@[simp] theorem loByte_wordOf (hi lo : Byte) : loByte (wordOf hi lo) = lo := by
  apply BitVec.eq_of_toNat_eq
  have := lo.isLt
  rw [loByte_toNat, wordOf_toNat]; omega

/-! ## The table -/

/-- R84: the opcode table is well formed, so it is built. -/
theorem opcodeRows_ok : tableTextOk opcodeRows = true := by decide

theorem buildTable_some {H : Type} (t : List (List Char × H)) (h : tableTextOk t = true) :
    ∃ u, buildTable t = some u := by
  induction t with
  | nil => exact ⟨[], rfl⟩
  | cons row rows ih =>
    obtain ⟨text, hd⟩ := row
    simp only [tableTextOk, List.all_cons, Bool.and_eq_true] at h
    obtain ⟨u, hu⟩ := ih h.2
    obtain ⟨a, b, c, d, rfl⟩ : ∃ a b c d, text = [a, b, c, d] := by
      match text, h.1 with
      | [a, b, c, d], _ => exact ⟨a, b, c, d, rfl⟩
    exact ⟨_, by simp only [buildTable, readPattern, hu]; rfl⟩

theorem buildTable_opcodeRows : buildTable opcodeRows = some opcodeTable := rfl

/-! ## A direct match on the nibbles (R91) -/

/-- The instruction of a word by a match on its nibbles, `none` for a word of R92. -/
def directInstr (w : Word) : Option Instr :=
  match (nib0 w).toNat with
  | 0 => if w = 0x00E0 then some .cls else if w = 0x00EE then some .ret else none
  | 1 => some (.jp (w.extractLsb' 0 12))
  | 2 => some (.call (w.extractLsb' 0 12))
  | 3 => some (.seImm (nib1 w) (loByte w))
  | 4 => some (.sneImm (nib1 w) (loByte w))
  | 5 => if nib3 w = 0 then some (.seReg (nib1 w) (nib2 w)) else none
  | 6 => some (.ldImm (nib1 w) (loByte w))
  | 7 => some (.addImm (nib1 w) (loByte w))
  | 8 =>
    match (nib3 w).toNat with
    | 0 => some (.ldReg (nib1 w) (nib2 w))
    | 1 => some (.orReg (nib1 w) (nib2 w))
    | 2 => some (.andReg (nib1 w) (nib2 w))
    | 3 => some (.xorReg (nib1 w) (nib2 w))
    | 4 => some (.addReg (nib1 w) (nib2 w))
    | 5 => some (.subReg (nib1 w) (nib2 w))
    | 6 => some (.shrReg (nib1 w) (nib2 w))
    | 7 => some (.subnReg (nib1 w) (nib2 w))
    | 14 => some (.shlReg (nib1 w) (nib2 w))
    | _ => none
  | 9 => if nib3 w = 0 then some (.sneReg (nib1 w) (nib2 w)) else none
  | 10 => some (.ldIndex (w.extractLsb' 0 12))
  | 11 => some (.jpV0 (w.extractLsb' 0 12))
  | 12 => some (.rnd (nib1 w) (loByte w))
  | 13 => some (.drw (nib1 w) (nib2 w) (nib3 w))
  | 14 =>
    if loByte w = 0x9E then some (.skp (nib1 w))
    else if loByte w = 0xA1 then some (.sknp (nib1 w)) else none
  | _ =>
    if loByte w = 0x07 then some (.ldFromDelay (nib1 w))
    else if loByte w = 0x15 then some (.ldDelay (nib1 w))
    else if loByte w = 0x18 then some (.ldSound (nib1 w))
    else if loByte w = 0x0A then some (.waitKey (nib1 w))
    else if loByte w = 0x1E then some (.addIndex (nib1 w))
    else if loByte w = 0x55 then some (.storeRegs (nib1 w))
    else if loByte w = 0x65 then some (.loadRegs (nib1 w)) else none

theorem loByte_eq_iff (w : Word) (k : Byte) :
    loByte w = k ↔ nib2 w = k.extractLsb' 4 4 ∧ nib3 w = k.extractLsb' 0 4 := by
  have hk := k.isLt
  have e1 : (k.extractLsb' 4 4).toNat = k.toNat / 16 := by
    simp [BitVec.extractLsb'_toNat, Nat.shiftRight_eq_div_pow]; omega
  have e2 : (k.extractLsb' 0 4).toNat = k.toNat % 16 := by simp [BitVec.extractLsb'_toNat]
  simp only [← BitVec.toNat_inj, loByte_toNat, nib2_toNat, nib3_toNat, e1, e2]; omega

theorem word_eq_iff (w k : Word) :
    w = k ↔ nib0 w = nib0 k ∧ nib1 w = nib1 k ∧ nib2 w = nib2 k ∧ nib3 w = nib3 k := by
  have := w.isLt
  have := k.isLt
  simp only [← BitVec.toNat_inj, nib0_toNat, nib1_toNat, nib2_toNat, nib3_toNat]; omega

theorem byteField_eq (w : Word) :
    BitVec.ofNat 8 ((nib2 w).toNat * 16 + (nib3 w).toNat) = loByte w := by
  apply BitVec.eq_of_toNat_eq
  simp only [BitVec.toNat_ofNat, loByte_toNat, nib2_toNat, nib3_toNat]; omega

theorem addrField_eq (w : Word) :
    BitVec.ofNat 12 (((nib1 w).toNat * 16 + (nib2 w).toNat) * 16 + (nib3 w).toNat) = w.extractLsb' 0 12 := by
  apply BitVec.eq_of_toNat_eq
  simp only [BitVec.toNat_ofNat, BitVec.extractLsb'_toNat, nib1_toNat, nib2_toNat, nib3_toNat,
    Nat.shiftRight_zero]
  omega

/-- A word's first nibble, case by case. -/
theorem nibble_cases (n : Nibble) : n = 0 ∨ n = 1 ∨ n = 2 ∨ n = 3 ∨ n = 4 ∨ n = 5 ∨ n = 6 ∨ n = 7 ∨
    n = 8 ∨ n = 9 ∨ n = 10 ∨ n = 11 ∨ n = 12 ∨ n = 13 ∨ n = 14 ∨ n = 15 := by
  revert n; decide

/-- The table's search over a list of rows, with the first row's test made explicit. -/
theorem decodeTable_cons {H : Type} (p : Pattern) (h : H) (rows : List (Pattern × H)) (w : Word) :
    decodeTable ((p, h) :: rows) w =
      if p.matchesWord w then some (h, p.field w) else decodeTable rows w := rfl

/-- Decoding by the pattern table is decoding by a direct match on the nibbles (R91). -/
theorem decode_eq_direct (w : Word) :
    decode w = match directInstr w with
      | some i => .instr i
      | none => .unsupportedInstruction w := by
  rcases nibble_cases (nib0 w) with h | h | h | h | h | h | h | h | h | h | h | h | h | h | h | h
  all_goals
    simp [decode, opcodeTable, opcodeRows, opcodeRowsLow, opcodeRowsAlu, opcodeRowsHigh, buildTable,
      readPattern, readSlot, hexVal, decodeTable, Pattern.matchesWord, Slot.agrees, Pattern.field,
      Slot.gather, h, directInstr, regField, byteField_eq, addrField_eq, byteField, addrField, nibbleField,
      @eq_comm _ _ (nib1 w), @eq_comm _ _ (nib2 w), @eq_comm _ _ (nib3 w), loByte_eq_iff]
  case inl =>
    have e1 : w = 224#16 ↔ (nib1 w = 0#4 ∧ nib2 w = 14#4) ∧ nib3 w = 0#4 := by
      rw [word_eq_iff, h, and_assoc]; exact ⟨fun q => q.2, fun q => ⟨rfl, q⟩⟩
    have e2 : w = 238#16 ↔ (nib1 w = 0#4 ∧ nib2 w = 14#4) ∧ nib3 w = 14#4 := by
      rw [word_eq_iff, h, and_assoc]; exact ⟨fun q => q.2, fun q => ⟨rfl, q⟩⟩
    simp only [e1, e2]
    split_ifs <;> rfl
  case inr.inr.inr.inr.inr.inr.inr.inr.inl =>
    rcases nibble_cases (nib3 w) with k | k | k | k | k | k | k | k | k | k | k | k | k | k | k | k <;>
      simp [k, Pattern.field, Slot.gather]
  all_goals
    split_ifs <;> simp [Pattern.field, Slot.gather]

theorem decode_eq_instr_iff (w : Word) (i : Instr) : decode w = .instr i ↔ directInstr w = some i := by
  rw [decode_eq_direct]; cases directInstr w <;> simp

theorem decode_eq_unsupported_iff (w v : Word) :
    decode w = .unsupportedInstruction v ↔ directInstr w = none ∧ w = v := by
  rw [decode_eq_direct]; cases directInstr w <;> simp

end Sys2Proof
end

