-- ==== Sys2Proof/Laws/Encode.lean ====
section
/-! SUPPORT. The encoder's formats bit by bit and nibble by nibble (30_encoding.md R90). -/

namespace Sys2Proof

theorem formAddr_bit (op : Nibble) (nnn : Addr12) (i : Nat) :
    (formAddr op nnn).getLsbD i = if i < 12 then nnn.getLsbD i else op.getLsbD (i - 12) :=
  BitVec.getLsbD_append (x := op) (y := nnn)

theorem formImm_bit (op : Nibble) (x : Reg) (nn : Byte) (i : Nat) :
    (formImm op x nn).getLsbD i =
      if i < 8 then nn.getLsbD i else if i - 8 < 4 then x.getLsbD (i - 8) else op.getLsbD (i - 8 - 4) := by
  have h : (formImm op x nn).getLsbD i =
      if i < 8 then nn.getLsbD i else (op ++ x : BitVec (4 + 4)).getLsbD (i - 8) :=
    BitVec.getLsbD_append (x := (op ++ x : BitVec (4 + 4))) (y := nn)
  rw [h, BitVec.getLsbD_append]

theorem formXsub_bit (op : Nibble) (x : Reg) (sub : Byte) (i : Nat) :
    (formXsub op x sub).getLsbD i =
      if i < 8 then sub.getLsbD i else if i - 8 < 4 then x.getLsbD (i - 8) else op.getLsbD (i - 8 - 4) :=
  formImm_bit op x sub i

theorem formRR_bit (op : Nibble) (x y : Reg) (sub : Nibble) (i : Nat) :
    (formRR op x y sub).getLsbD i =
      if i < 8 then (if i < 4 then sub.getLsbD i else y.getLsbD (i - 4))
      else if i - 8 < 4 then x.getLsbD (i - 8) else op.getLsbD (i - 8 - 4) := by
  have h : (formRR op x y sub).getLsbD i =
      if i < 8 then (y ++ sub : BitVec (4 + 4)).getLsbD i else (op ++ x : BitVec (4 + 4)).getLsbD (i - 8) :=
    BitVec.getLsbD_append (x := (op ++ x : BitVec (4 + 4))) (y := (y ++ sub : BitVec (4 + 4)))
  rw [h, BitVec.getLsbD_append, BitVec.getLsbD_append]

/-! ## Masks -/

theorem formAddr_and_F000 (op : Nibble) (nnn : Addr12) : formAddr op nnn &&& 0xF000 = formAddr op 0 := by
  apply BitVec.eq_of_getLsbD_eq
  intro i hi
  simp only [BitVec.getLsbD_and, formAddr_bit]
  interval_cases i <;> simp

theorem formImm_and_F000 (op : Nibble) (x : Reg) (nn : Byte) : formImm op x nn &&& 0xF000 = formAddr op 0 := by
  apply BitVec.eq_of_getLsbD_eq
  intro i hi
  simp only [BitVec.getLsbD_and, formAddr_bit, formImm_bit]
  interval_cases i <;> simp

theorem formRR_and_F000 (op : Nibble) (x y : Reg) (n : Nibble) : formRR op x y n &&& 0xF000 = formAddr op 0 := by
  apply BitVec.eq_of_getLsbD_eq
  intro i hi
  simp only [BitVec.getLsbD_and, formAddr_bit, formRR_bit]
  interval_cases i <;> simp

theorem formRR_and_F00F (op : Nibble) (x y : Reg) (sub : Nibble) :
    formRR op x y sub &&& 0xF00F = formRR op 0 0 sub := by
  apply BitVec.eq_of_getLsbD_eq
  intro i hi
  simp only [BitVec.getLsbD_and, formRR_bit]
  interval_cases i <;> simp

theorem formXsub_and_F0FF (op : Nibble) (x : Reg) (sub : Byte) :
    formXsub op x sub &&& 0xF0FF = formXsub op 0 sub := by
  apply BitVec.eq_of_getLsbD_eq
  intro i hi
  simp only [BitVec.getLsbD_and, formXsub_bit]
  interval_cases i <;> simp

/-- A word whose top nibble is fixed. -/
theorem and_F000_iff (w : Word) (k : Nibble) : w &&& 0xF000 = formAddr k 0 ↔ nib0 w = k := by
  constructor
  · intro h
    apply BitVec.eq_of_getLsbD_eq
    intro i hi
    have := congrArg (fun v => BitVec.getLsbD v (12+i)) h
    simp only [BitVec.getLsbD_and, formAddr_bit] at this
    simp [nib0, hi]
    interval_cases i <;> simpa using this
  · rintro rfl
    apply BitVec.eq_of_getLsbD_eq
    intro i hi
    simp only [BitVec.getLsbD_and, formAddr_bit]
    interval_cases i <;> simp [nib0]

/-- A word whose top and bottom nibbles are fixed. -/
theorem and_F00F_iff (w : Word) (k m : Nibble) : w &&& 0xF00F = formRR k 0 0 m ↔ nib0 w = k ∧ nib3 w = m := by
  constructor
  · intro h
    constructor
    · apply BitVec.eq_of_getLsbD_eq
      intro i hi
      have := congrArg (fun v => BitVec.getLsbD v (12+i)) h
      simp only [BitVec.getLsbD_and, formRR_bit] at this
      simp [nib0, hi]
      interval_cases i <;> simpa using this
    · apply BitVec.eq_of_getLsbD_eq
      intro i hi
      have := congrArg (fun v => BitVec.getLsbD v (i)) h
      simp only [BitVec.getLsbD_and, formRR_bit] at this
      simp [nib3, hi]
      interval_cases i <;> simpa using this
  · rintro ⟨rfl, rfl⟩
    apply BitVec.eq_of_getLsbD_eq
    intro i hi
    simp only [BitVec.getLsbD_and, formRR_bit]
    interval_cases i <;> simp [nib0, nib3]

/-- A word whose top nibble and low byte are fixed. -/
theorem and_F0FF_iff (w : Word) (k : Nibble) (m : Byte) : w &&& 0xF0FF = formXsub k 0 m ↔ nib0 w = k ∧ loByte w = m := by
  constructor
  · intro h
    constructor
    · apply BitVec.eq_of_getLsbD_eq
      intro i hi
      have := congrArg (fun v => BitVec.getLsbD v (12+i)) h
      simp only [BitVec.getLsbD_and, formXsub_bit] at this
      simp [nib0, hi]
      interval_cases i <;> simpa using this
    · apply BitVec.eq_of_getLsbD_eq
      intro i hi
      have := congrArg (fun v => BitVec.getLsbD v (i)) h
      simp only [BitVec.getLsbD_and, formXsub_bit] at this
      simp [loByte, hi]
      interval_cases i <;> simpa using this
  · rintro ⟨rfl, rfl⟩
    apply BitVec.eq_of_getLsbD_eq
    intro i hi
    simp only [BitVec.getLsbD_and, formXsub_bit]
    interval_cases i <;> simp [nib0, loByte]

/-! ## Numbers -/

theorem formAddr_toNat (op : Nibble) (nnn : Addr12) : (formAddr op nnn).toNat = op.toNat * 4096 + nnn.toNat := by
  have h : (op ++ nnn : BitVec (4 + 12)).toNat = op.toNat * 4096 + nnn.toNat := by
    rw [BitVec.toNat_append, ← Nat.shiftLeft_add_eq_or_of_lt nnn.isLt, Nat.shiftLeft_eq]
  exact h

theorem formRR_toNat (op : Nibble) (x y : Reg) (sub : Nibble) :
    (formRR op x y sub).toNat = ((op.toNat * 16 + x.toNat) * 16 + y.toNat) * 16 + sub.toNat := by
  have h1 : (op ++ x : BitVec (4 + 4)).toNat = op.toNat * 16 + x.toNat := by
    rw [BitVec.toNat_append, ← Nat.shiftLeft_add_eq_or_of_lt x.isLt, Nat.shiftLeft_eq]
  have h2 : (y ++ sub : BitVec (4 + 4)).toNat = y.toNat * 16 + sub.toNat := by
    rw [BitVec.toNat_append, ← Nat.shiftLeft_add_eq_or_of_lt sub.isLt, Nat.shiftLeft_eq]
  have h := wordOf_toNat (op ++ x) (y ++ sub)
  have e : (formRR op x y sub).toNat =
      (op ++ x : BitVec (4 + 4)).toNat * 256 + (y ++ sub : BitVec (4 + 4)).toNat := h
  rw [e, h1, h2]; omega

theorem formImm_toNat (op : Nibble) (x : Reg) (nn : Byte) :
    (formImm op x nn).toNat = (op.toNat * 16 + x.toNat) * 256 + nn.toNat := by
  have h1 : (op ++ x : BitVec (4 + 4)).toNat = op.toNat * 16 + x.toNat := by
    rw [BitVec.toNat_append, ← Nat.shiftLeft_add_eq_or_of_lt x.isLt, Nat.shiftLeft_eq]
  have e : (formImm op x nn).toNat = (op ++ x : BitVec (4 + 4)).toNat * 256 + nn.toNat :=
    wordOf_toNat (op ++ x) nn
  rw [e, h1]

theorem formXsub_toNat (op : Nibble) (x : Reg) (sub : Byte) :
    (formXsub op x sub).toNat = (op.toNat * 16 + x.toNat) * 256 + sub.toNat := formImm_toNat op x sub

end Sys2Proof
end

