-- ==== Sys2Proof/Laws/Memory.lean ====
section
/-! SUPPORT. Memory: a read after a write, the canonical form is kept by every operation, and equal reads of canonical
memories are equal memories. -/

namespace Sys2Proof.Machine

/-! ## One byte -/

/-- A read below every listed address gives 0. -/
theorem Memory.read_of_lt (m : Memory) (a : Nat) (h : ∀ p ∈ m, a < p.1) : Memory.read m a = 0 := by
  induction m with
  | nil => rfl
  | cons p m ih =>
    have hp := h p (by simp)
    simp only [Memory.read]
    rw [if_neg (by omega)]
    exact ih fun q hq => h q (by simp [hq])

/-- A read after a write, for every address, in any canonical memory. -/
theorem Memory.read_write (m : Memory) (hm : Memory.wf m) (a : Nat) (b : Byte) (k : Nat) :
    Memory.read (Memory.write m a b) k = if k = a then b else Memory.read m k := by
  induction m with
  | nil =>
    by_cases hb : b = 0
    · rw [Memory.write, if_pos hb, hb, Memory.read, ite_self]
    · rw [Memory.write, if_neg hb]
      by_cases hk : k = a
      · rw [if_pos hk, Memory.read, if_pos hk.symm]
      · rw [if_neg hk]; simp only [Memory.read, if_neg (Ne.symm hk)]
  | cons p m ih =>
    obtain ⟨q, c⟩ := p
    obtain ⟨hs, hz⟩ := hm
    rw [List.pairwise_cons] at hs
    have ihm := ih ⟨hs.2, fun p hp => hz p (by simp [hp])⟩
    have low : ∀ j, j ≤ q → Memory.read m j = 0 := fun j hj =>
      Memory.read_of_lt m j fun p hp => Nat.lt_of_le_of_lt hj (hs.1 p hp)
    rcases Nat.lt_trichotomy a q with h | h | h
    · by_cases hb : b = 0
      · rw [Memory.write, if_pos h, if_pos hb]
        by_cases hk : k = a
        · rw [if_pos hk, hb, Memory.read, if_neg (by omega), low k (by omega)]
        · rw [if_neg hk]
      · rw [Memory.write, if_pos h, if_neg hb, Memory.read]
        by_cases hk : k = a
        · rw [if_pos hk, if_pos hk.symm]
        · rw [if_neg hk, if_neg (Ne.symm hk)]
    · by_cases hb : b = 0
      · rw [Memory.write, if_neg (by omega), if_pos h, if_pos hb]
        by_cases hk : k = a
        · rw [if_pos hk, hb, low k (by omega)]
        · rw [if_neg hk, Memory.read, if_neg (by omega)]
      · rw [Memory.write, if_neg (by omega), if_pos h, if_neg hb, Memory.read]
        by_cases hk : k = a
        · rw [if_pos hk, if_pos hk.symm]
        · rw [if_neg hk, if_neg (Ne.symm hk), Memory.read, if_neg (by omega)]
    · rw [Memory.write, if_neg (by omega), if_neg (by omega), Memory.read, ihm, Memory.read]
      by_cases hk : k = a
      · rw [if_neg (by omega), if_pos hk, if_pos hk]
      · rw [if_neg hk, if_neg hk]

/-- The entries of a write are the old ones or the written one. -/
theorem Memory.mem_write (m : Memory) (a : Nat) (b : Byte) (p : Host.Cell) (h : p ∈ Memory.write m a b) :
    p ∈ m ∨ (p = (a, b) ∧ b ≠ 0) := by
  induction m with
  | nil =>
    by_cases hb : b = 0
    · simp [Memory.write, hb] at h
    · simp only [Memory.write, hb, if_false, List.mem_singleton] at h; exact Or.inr ⟨h, hb⟩
  | cons q m ih =>
    obtain ⟨k, c⟩ := q
    simp only [Memory.write] at h
    split_ifs at h with h1 h2 h3 h4
    · exact Or.inl h
    · rcases List.mem_cons.1 h with h | h
      · exact Or.inr ⟨h, h2⟩
      · exact Or.inl h
    · exact Or.inl (List.mem_cons_of_mem _ h)
    · rcases List.mem_cons.1 h with h | h
      · exact Or.inr ⟨h, h4⟩
      · exact Or.inl (List.mem_cons_of_mem _ h)
    · rcases List.mem_cons.1 h with h | h
      · exact Or.inl (by simp [h])
      · rcases ih h with h | h
        · exact Or.inl (List.mem_cons_of_mem _ h)
        · exact Or.inr h

/-- A write keeps the canonical form. -/
theorem Memory.wf_write (m : Memory) (hm : Memory.wf m) (a : Nat) (b : Byte) :
    Memory.wf (Memory.write m a b) := by
  refine ⟨?_, fun p hp => ?_⟩
  · induction m with
    | nil =>
      by_cases hb : b = 0
      · rw [Memory.write, if_pos hb]; exact List.Pairwise.nil
      · rw [Memory.write, if_neg hb]; exact List.pairwise_singleton _ _
    | cons q m ih =>
      obtain ⟨k, c⟩ := q
      obtain ⟨hs, hz⟩ := hm
      have hs' := List.pairwise_cons.1 hs
      simp only [Memory.write]
      split_ifs with h1 h2 h3 h4
      · exact hs
      · refine List.pairwise_cons.2 ⟨fun p hp => ?_, hs⟩
        rcases List.mem_cons.1 hp with hp | hp
        · subst hp; exact h1
        · exact Nat.lt_trans h1 (hs'.1 p hp)
      · exact hs'.2
      · subst h3; exact List.pairwise_cons.2 ⟨hs'.1, hs'.2⟩
      · refine List.pairwise_cons.2 ⟨fun p hp => ?_, ih ⟨hs'.2, fun p hp => hz p (by simp [hp])⟩⟩
        rcases Memory.mem_write m a b p hp with hp | hp
        · exact hs'.1 p hp
        · rw [hp.1]; show k < a; omega
  · rcases Memory.mem_write m a b p hp with hp | hp
    · exact hm.2 p hp
    · rw [hp.1]; exact hp.2

/-- A write below a bound keeps every listed address below it. -/
theorem Memory.below_write (m : Memory) (n a : Nat) (b : Byte) (hm : Memory.below m n) (ha : a < n) :
    Memory.below (Memory.write m a b) n := fun p hp => by
  rcases Memory.mem_write m a b p hp with hp | hp
  · exact hm p hp
  · rw [hp.1]; exact ha

/-- A canonical memory reads its own entries. -/
theorem Memory.read_of_mem (m : Memory) (hm : Memory.wf m) (p : Host.Cell) (hp : p ∈ m) :
    Memory.read m p.1 = p.2 := by
  induction m with
  | nil => simp at hp
  | cons q m ih =>
    obtain ⟨k, c⟩ := q
    have hs := List.pairwise_cons.1 hm.1
    rcases List.mem_cons.1 hp with hp | hp
    · subst hp; simp [Memory.read]
    · have hlt : k < p.1 := hs.1 p hp
      simp only [Memory.read]
      rw [if_neg (by omega)]
      exact ih ⟨hs.2, fun p hp => hm.2 p (by simp [hp])⟩ hp

/-! ## Slices -/

@[simp] theorem Memory.readList_length (m : Memory) (a n : Nat) : (Memory.readList m a n).length = n := by
  induction n generalizing a with
  | zero => rfl
  | succ n ih => simp [Memory.readList, ih]

/-- Byte `k` of a slice is the byte at `a + k` (R57). -/
theorem Memory.readList_getElem? (m : Memory) (a n k : Nat) :
    (Memory.readList m a n)[k]? = if k < n then some (Memory.read m (a + k)) else none := by
  induction n generalizing a k with
  | zero => simp [Memory.readList]
  | succ n ih =>
    cases k with
    | zero => simp [Memory.readList]
    | succ k =>
      simp only [Memory.readList, List.getElem?_cons_succ, ih, Nat.add_lt_add_iff_right]
      rw [show a + 1 + k = a + (k + 1) by omega]

/-- A slice write keeps the canonical form. -/
theorem Memory.wf_writeList (m : Memory) (hm : Memory.wf m) (a : Nat) (bs : List Byte) :
    Memory.wf (Memory.writeList m a bs) := by
  induction bs generalizing m a with
  | nil => exact hm
  | cons b bs ih => exact ih _ (Memory.wf_write m hm a b) _

/-- A slice write below a bound keeps every listed address below it. -/
theorem Memory.below_writeList (m : Memory) (n a : Nat) (bs : List Byte) (hm : Memory.below m n)
    (ha : a + bs.length ≤ n) : Memory.below (Memory.writeList m a bs) n := by
  induction bs generalizing m a with
  | nil => exact hm
  | cons b bs ih =>
    simp only [List.length_cons] at ha
    exact ih _ _ (Memory.below_write m n a b hm (by omega)) (by omega)

/-- A read after a slice write: inside the slice the byte written there, outside it the old byte (R58). -/
theorem Memory.read_writeList (m : Memory) (hm : Memory.wf m) (a : Nat) (bs : List Byte) (k : Nat) :
    Memory.read (Memory.writeList m a bs) k =
      if a ≤ k then (bs[k - a]?).getD (Memory.read m k) else Memory.read m k := by
  induction bs generalizing m a with
  | nil => simp [Memory.writeList]
  | cons b bs ih =>
    rw [Memory.writeList, ih _ (Memory.wf_write m hm a b), Memory.read_write m hm]
    by_cases h1 : a + 1 ≤ k
    · have h2 : a ≤ k := by omega
      have h3 : k ≠ a := by omega
      rw [if_pos h1, if_pos h2, if_neg h3, show k - a = (k - (a + 1)) + 1 by omega,
        List.getElem?_cons_succ]
    · rw [if_neg h1]
      by_cases h2 : k = a
      · subst h2; simp
      · rw [if_neg h2, if_neg (by omega)]

/-! ## The primitives -/

@[simp] theorem State.inRange_iff (s : State) (a n : Nat) :
    s.inRange a n = true ↔ a + n ≤ s.params.memSize.bytes := by simp [State.inRange]

/-- Everything `MemSlice` can do (R57). -/
theorem State.memSlice_cases (s : State) (a n : Nat) :
    (a + n ≤ s.params.memSize.bytes ∧ s.memSlice a n = some (Memory.readList s.mem a n)) ∨
    (s.params.memSize.bytes < a + n ∧ s.memSlice a n = none) := by
  by_cases h : a + n ≤ s.params.memSize.bytes
  · exact Or.inl ⟨h, by simp [State.memSlice, State.inRange, h]⟩
  · exact Or.inr ⟨by omega, by simp [State.memSlice, State.inRange, h]⟩

/-- Everything `MemSliceWrite` can do (R58). -/
theorem State.memSliceWrite_cases (s : State) (a : Nat) (bs : List Byte) :
    (a + bs.length ≤ s.params.memSize.bytes ∧
      s.memSliceWrite a bs = some { s with mem := Memory.writeList s.mem a bs }) ∨
    (s.params.memSize.bytes < a + bs.length ∧ s.memSliceWrite a bs = none) := by
  by_cases h : a + bs.length ≤ s.params.memSize.bytes
  · exact Or.inl ⟨h, by simp [State.memSliceWrite, State.inRange, h]⟩
  · exact Or.inr ⟨by omega, by simp [State.memSliceWrite, State.inRange, h]⟩

/-- Everything the fetch can do (R96). -/
theorem State.fetch_cases (s : State) :
    (s.pc.toNat + 2 ≤ s.params.memSize.bytes ∧
      s.fetch = some (wordOf (Memory.read s.mem s.pc.toNat) (Memory.read s.mem (s.pc.toNat + 1)))) ∨
    (s.params.memSize.bytes < s.pc.toNat + 2 ∧ s.fetch = none) := by
  by_cases h : s.pc.toNat + 2 ≤ s.params.memSize.bytes
  · exact Or.inl ⟨h, by simp [State.fetch, State.memRead16, State.inRange, h]⟩
  · exact Or.inr ⟨by omega, by simp [State.fetch, State.memRead16, State.inRange, h]⟩

/-- The byte and word writes of R56 keep the canonical form, and listed addresses below the capacity. -/
theorem State.memWrite8_keeps (s t : State) (a : Nat) (v : Byte) (h : s.memWrite8 a v = some t)
    (hw : Memory.wf s.mem) (hb : Memory.below s.mem s.params.memSize.bytes) :
    Memory.wf t.mem ∧ Memory.below t.mem s.params.memSize.bytes := by
  simp only [State.memWrite8, State.inRange_iff] at h
  split_ifs at h with hr
  obtain rfl := Option.some.inj h
  exact ⟨Memory.wf_write _ hw a v, Memory.below_write _ _ a v hb (by omega)⟩

theorem State.memWrite16_keeps (s t : State) (a : Nat) (v : Word) (h : s.memWrite16 a v = some t)
    (hw : Memory.wf s.mem) (hb : Memory.below s.mem s.params.memSize.bytes) :
    Memory.wf t.mem ∧ Memory.below t.mem s.params.memSize.bytes := by
  simp only [State.memWrite16, State.inRange_iff] at h
  split_ifs at h with hr
  obtain rfl := Option.some.inj h
  exact ⟨Memory.wf_write _ (Memory.wf_write _ hw _ _) _ _,
    Memory.below_write _ _ _ _ (Memory.below_write _ _ _ _ hb (by omega)) (by omega)⟩

/-- The memory of the reset state is canonical. -/
theorem State.reset_mem_wf : Memory.wf State.reset.mem := by decide

end Sys2Proof.Machine
end

