-- ==== Sys2Proof/Laws/State.lean ====
section
/-! SUPPORT. One lemma per field per update of State, and reads of registers after writes. -/

namespace Sys2Proof.Machine

variable (s : State)

/-! ### State.writeReg -/

@[simp] theorem State.writeReg_regs (r : Reg) (b : Byte) : (s.writeReg r b).regs = s.regs.set r.toNat b r.isLt := rfl
@[simp] theorem State.writeReg_index (r : Reg) (b : Byte) : (s.writeReg r b).index = s.index := rfl
@[simp] theorem State.writeReg_pc (r : Reg) (b : Byte) : (s.writeReg r b).pc = s.pc := rfl
@[simp] theorem State.writeReg_stack (r : Reg) (b : Byte) : (s.writeReg r b).stack = s.stack := rfl
@[simp] theorem State.writeReg_delay (r : Reg) (b : Byte) : (s.writeReg r b).delay = s.delay := rfl
@[simp] theorem State.writeReg_sound (r : Reg) (b : Byte) : (s.writeReg r b).sound = s.sound := rfl
@[simp] theorem State.writeReg_mem (r : Reg) (b : Byte) : (s.writeReg r b).mem = s.mem := rfl
@[simp] theorem State.writeReg_fault (r : Reg) (b : Byte) : (s.writeReg r b).fault = s.fault := rfl
@[simp] theorem State.writeReg_halt (r : Reg) (b : Byte) : (s.writeReg r b).halt = s.halt := rfl
@[simp] theorem State.writeReg_frame (r : Reg) (b : Byte) : (s.writeReg r b).frame = s.frame := rfl
@[simp] theorem State.writeReg_stop (r : Reg) (b : Byte) : (s.writeReg r b).stop = s.stop := rfl
@[simp] theorem State.writeReg_pending (r : Reg) (b : Byte) : (s.writeReg r b).pending = s.pending := rfl
@[simp] theorem State.writeReg_params (r : Reg) (b : Byte) : (s.writeReg r b).params = s.params := rfl
@[simp] theorem State.writeReg_events (r : Reg) (b : Byte) : (s.writeReg r b).events = s.events := rfl
@[simp] theorem State.writeReg_calls (r : Reg) (b : Byte) : (s.writeReg r b).calls = s.calls := rfl
@[simp] theorem State.writeReg_draws (r : Reg) (b : Byte) : (s.writeReg r b).draws = s.draws := rfl
@[simp] theorem State.writeReg_wait (r : Reg) (b : Byte) : (s.writeReg r b).wait = s.wait := rfl

/-! ### State.setIndex -/

@[simp] theorem State.setIndex_regs (v : Word) : (s.setIndex v).regs = s.regs := rfl
@[simp] theorem State.setIndex_index (v : Word) : (s.setIndex v).index = v := rfl
@[simp] theorem State.setIndex_pc (v : Word) : (s.setIndex v).pc = s.pc := rfl
@[simp] theorem State.setIndex_stack (v : Word) : (s.setIndex v).stack = s.stack := rfl
@[simp] theorem State.setIndex_delay (v : Word) : (s.setIndex v).delay = s.delay := rfl
@[simp] theorem State.setIndex_sound (v : Word) : (s.setIndex v).sound = s.sound := rfl
@[simp] theorem State.setIndex_mem (v : Word) : (s.setIndex v).mem = s.mem := rfl
@[simp] theorem State.setIndex_fault (v : Word) : (s.setIndex v).fault = s.fault := rfl
@[simp] theorem State.setIndex_halt (v : Word) : (s.setIndex v).halt = s.halt := rfl
@[simp] theorem State.setIndex_frame (v : Word) : (s.setIndex v).frame = s.frame := rfl
@[simp] theorem State.setIndex_stop (v : Word) : (s.setIndex v).stop = s.stop := rfl
@[simp] theorem State.setIndex_pending (v : Word) : (s.setIndex v).pending = s.pending := rfl
@[simp] theorem State.setIndex_params (v : Word) : (s.setIndex v).params = s.params := rfl
@[simp] theorem State.setIndex_events (v : Word) : (s.setIndex v).events = s.events := rfl
@[simp] theorem State.setIndex_calls (v : Word) : (s.setIndex v).calls = s.calls := rfl
@[simp] theorem State.setIndex_draws (v : Word) : (s.setIndex v).draws = s.draws := rfl
@[simp] theorem State.setIndex_wait (v : Word) : (s.setIndex v).wait = s.wait := rfl

/-! ### State.setPc -/

@[simp] theorem State.setPc_regs (v : Word) : (s.setPc v).regs = s.regs := rfl
@[simp] theorem State.setPc_index (v : Word) : (s.setPc v).index = s.index := rfl
@[simp] theorem State.setPc_pc (v : Word) : (s.setPc v).pc = v := rfl
@[simp] theorem State.setPc_stack (v : Word) : (s.setPc v).stack = s.stack := rfl
@[simp] theorem State.setPc_delay (v : Word) : (s.setPc v).delay = s.delay := rfl
@[simp] theorem State.setPc_sound (v : Word) : (s.setPc v).sound = s.sound := rfl
@[simp] theorem State.setPc_mem (v : Word) : (s.setPc v).mem = s.mem := rfl
@[simp] theorem State.setPc_fault (v : Word) : (s.setPc v).fault = s.fault := rfl
@[simp] theorem State.setPc_halt (v : Word) : (s.setPc v).halt = s.halt := rfl
@[simp] theorem State.setPc_frame (v : Word) : (s.setPc v).frame = s.frame := rfl
@[simp] theorem State.setPc_stop (v : Word) : (s.setPc v).stop = s.stop := rfl
@[simp] theorem State.setPc_pending (v : Word) : (s.setPc v).pending = s.pending := rfl
@[simp] theorem State.setPc_params (v : Word) : (s.setPc v).params = s.params := rfl
@[simp] theorem State.setPc_events (v : Word) : (s.setPc v).events = s.events := rfl
@[simp] theorem State.setPc_calls (v : Word) : (s.setPc v).calls = s.calls := rfl
@[simp] theorem State.setPc_draws (v : Word) : (s.setPc v).draws = s.draws := rfl
@[simp] theorem State.setPc_wait (v : Word) : (s.setPc v).wait = s.wait := rfl

/-! ### State.setDelay -/

@[simp] theorem State.setDelay_regs (v : Byte) : (s.setDelay v).regs = s.regs := rfl
@[simp] theorem State.setDelay_index (v : Byte) : (s.setDelay v).index = s.index := rfl
@[simp] theorem State.setDelay_pc (v : Byte) : (s.setDelay v).pc = s.pc := rfl
@[simp] theorem State.setDelay_stack (v : Byte) : (s.setDelay v).stack = s.stack := rfl
@[simp] theorem State.setDelay_delay (v : Byte) : (s.setDelay v).delay = v := rfl
@[simp] theorem State.setDelay_sound (v : Byte) : (s.setDelay v).sound = s.sound := rfl
@[simp] theorem State.setDelay_mem (v : Byte) : (s.setDelay v).mem = s.mem := rfl
@[simp] theorem State.setDelay_fault (v : Byte) : (s.setDelay v).fault = s.fault := rfl
@[simp] theorem State.setDelay_halt (v : Byte) : (s.setDelay v).halt = s.halt := rfl
@[simp] theorem State.setDelay_frame (v : Byte) : (s.setDelay v).frame = s.frame := rfl
@[simp] theorem State.setDelay_stop (v : Byte) : (s.setDelay v).stop = s.stop := rfl
@[simp] theorem State.setDelay_pending (v : Byte) : (s.setDelay v).pending = s.pending := rfl
@[simp] theorem State.setDelay_params (v : Byte) : (s.setDelay v).params = s.params := rfl
@[simp] theorem State.setDelay_events (v : Byte) : (s.setDelay v).events = s.events := rfl
@[simp] theorem State.setDelay_calls (v : Byte) : (s.setDelay v).calls = s.calls := rfl
@[simp] theorem State.setDelay_draws (v : Byte) : (s.setDelay v).draws = s.draws := rfl
@[simp] theorem State.setDelay_wait (v : Byte) : (s.setDelay v).wait = s.wait := rfl

/-! ### State.setSound -/

@[simp] theorem State.setSound_regs (v : Byte) : (s.setSound v).regs = s.regs := rfl
@[simp] theorem State.setSound_index (v : Byte) : (s.setSound v).index = s.index := rfl
@[simp] theorem State.setSound_pc (v : Byte) : (s.setSound v).pc = s.pc := rfl
@[simp] theorem State.setSound_stack (v : Byte) : (s.setSound v).stack = s.stack := rfl
@[simp] theorem State.setSound_delay (v : Byte) : (s.setSound v).delay = s.delay := rfl
@[simp] theorem State.setSound_sound (v : Byte) : (s.setSound v).sound = v := rfl
@[simp] theorem State.setSound_mem (v : Byte) : (s.setSound v).mem = s.mem := rfl
@[simp] theorem State.setSound_fault (v : Byte) : (s.setSound v).fault = s.fault := rfl
@[simp] theorem State.setSound_halt (v : Byte) : (s.setSound v).halt = s.halt := rfl
@[simp] theorem State.setSound_frame (v : Byte) : (s.setSound v).frame = s.frame := rfl
@[simp] theorem State.setSound_stop (v : Byte) : (s.setSound v).stop = s.stop := rfl
@[simp] theorem State.setSound_pending (v : Byte) : (s.setSound v).pending = s.pending := rfl
@[simp] theorem State.setSound_params (v : Byte) : (s.setSound v).params = s.params := rfl
@[simp] theorem State.setSound_events (v : Byte) : (s.setSound v).events = s.events := rfl
@[simp] theorem State.setSound_calls (v : Byte) : (s.setSound v).calls = s.calls := rfl
@[simp] theorem State.setSound_draws (v : Byte) : (s.setSound v).draws = s.draws := rfl
@[simp] theorem State.setSound_wait (v : Byte) : (s.setSound v).wait = s.wait := rfl

/-! ### State.setStack -/

@[simp] theorem State.setStack_regs (l : List Word) : (s.setStack l).regs = s.regs := rfl
@[simp] theorem State.setStack_index (l : List Word) : (s.setStack l).index = s.index := rfl
@[simp] theorem State.setStack_pc (l : List Word) : (s.setStack l).pc = s.pc := rfl
@[simp] theorem State.setStack_stack (l : List Word) : (s.setStack l).stack = l := rfl
@[simp] theorem State.setStack_delay (l : List Word) : (s.setStack l).delay = s.delay := rfl
@[simp] theorem State.setStack_sound (l : List Word) : (s.setStack l).sound = s.sound := rfl
@[simp] theorem State.setStack_mem (l : List Word) : (s.setStack l).mem = s.mem := rfl
@[simp] theorem State.setStack_fault (l : List Word) : (s.setStack l).fault = s.fault := rfl
@[simp] theorem State.setStack_halt (l : List Word) : (s.setStack l).halt = s.halt := rfl
@[simp] theorem State.setStack_frame (l : List Word) : (s.setStack l).frame = s.frame := rfl
@[simp] theorem State.setStack_stop (l : List Word) : (s.setStack l).stop = s.stop := rfl
@[simp] theorem State.setStack_pending (l : List Word) : (s.setStack l).pending = s.pending := rfl
@[simp] theorem State.setStack_params (l : List Word) : (s.setStack l).params = s.params := rfl
@[simp] theorem State.setStack_events (l : List Word) : (s.setStack l).events = s.events := rfl
@[simp] theorem State.setStack_calls (l : List Word) : (s.setStack l).calls = s.calls := rfl
@[simp] theorem State.setStack_draws (l : List Word) : (s.setStack l).draws = s.draws := rfl
@[simp] theorem State.setStack_wait (l : List Word) : (s.setStack l).wait = s.wait := rfl

/-! ### State.push -/

@[simp] theorem State.push_regs (v : Word) : (s.push v).regs = s.regs := rfl
@[simp] theorem State.push_index (v : Word) : (s.push v).index = s.index := rfl
@[simp] theorem State.push_pc (v : Word) : (s.push v).pc = s.pc := rfl
@[simp] theorem State.push_stack (v : Word) : (s.push v).stack = s.stack ++ [v] := rfl
@[simp] theorem State.push_delay (v : Word) : (s.push v).delay = s.delay := rfl
@[simp] theorem State.push_sound (v : Word) : (s.push v).sound = s.sound := rfl
@[simp] theorem State.push_mem (v : Word) : (s.push v).mem = s.mem := rfl
@[simp] theorem State.push_fault (v : Word) : (s.push v).fault = s.fault := rfl
@[simp] theorem State.push_halt (v : Word) : (s.push v).halt = s.halt := rfl
@[simp] theorem State.push_frame (v : Word) : (s.push v).frame = s.frame := rfl
@[simp] theorem State.push_stop (v : Word) : (s.push v).stop = s.stop := rfl
@[simp] theorem State.push_pending (v : Word) : (s.push v).pending = s.pending := rfl
@[simp] theorem State.push_params (v : Word) : (s.push v).params = s.params := rfl
@[simp] theorem State.push_events (v : Word) : (s.push v).events = s.events := rfl
@[simp] theorem State.push_calls (v : Word) : (s.push v).calls = s.calls := rfl
@[simp] theorem State.push_draws (v : Word) : (s.push v).draws = s.draws := rfl
@[simp] theorem State.push_wait (v : Word) : (s.push v).wait = s.wait := rfl

/-! ### State.loadRegList -/

@[simp] theorem State.loadRegList_regs (bs : List Byte) : (s.loadRegList bs).regs = loadFrom 0 bs s.regs := rfl
@[simp] theorem State.loadRegList_index (bs : List Byte) : (s.loadRegList bs).index = s.index := rfl
@[simp] theorem State.loadRegList_pc (bs : List Byte) : (s.loadRegList bs).pc = s.pc := rfl
@[simp] theorem State.loadRegList_stack (bs : List Byte) : (s.loadRegList bs).stack = s.stack := rfl
@[simp] theorem State.loadRegList_delay (bs : List Byte) : (s.loadRegList bs).delay = s.delay := rfl
@[simp] theorem State.loadRegList_sound (bs : List Byte) : (s.loadRegList bs).sound = s.sound := rfl
@[simp] theorem State.loadRegList_mem (bs : List Byte) : (s.loadRegList bs).mem = s.mem := rfl
@[simp] theorem State.loadRegList_fault (bs : List Byte) : (s.loadRegList bs).fault = s.fault := rfl
@[simp] theorem State.loadRegList_halt (bs : List Byte) : (s.loadRegList bs).halt = s.halt := rfl
@[simp] theorem State.loadRegList_frame (bs : List Byte) : (s.loadRegList bs).frame = s.frame := rfl
@[simp] theorem State.loadRegList_stop (bs : List Byte) : (s.loadRegList bs).stop = s.stop := rfl
@[simp] theorem State.loadRegList_pending (bs : List Byte) : (s.loadRegList bs).pending = s.pending := rfl
@[simp] theorem State.loadRegList_params (bs : List Byte) : (s.loadRegList bs).params = s.params := rfl
@[simp] theorem State.loadRegList_events (bs : List Byte) : (s.loadRegList bs).events = s.events := rfl
@[simp] theorem State.loadRegList_calls (bs : List Byte) : (s.loadRegList bs).calls = s.calls := rfl
@[simp] theorem State.loadRegList_draws (bs : List Byte) : (s.loadRegList bs).draws = s.draws := rfl
@[simp] theorem State.loadRegList_wait (bs : List Byte) : (s.loadRegList bs).wait = s.wait := rfl

/-! ### State.advance -/

@[simp] theorem State.advance_regs : (s.advance).regs = s.regs := rfl
@[simp] theorem State.advance_index : (s.advance).index = s.index := rfl
@[simp] theorem State.advance_pc : (s.advance).pc = s.pc + 2 := rfl
@[simp] theorem State.advance_stack : (s.advance).stack = s.stack := rfl
@[simp] theorem State.advance_delay : (s.advance).delay = s.delay := rfl
@[simp] theorem State.advance_sound : (s.advance).sound = s.sound := rfl
@[simp] theorem State.advance_mem : (s.advance).mem = s.mem := rfl
@[simp] theorem State.advance_fault : (s.advance).fault = s.fault := rfl
@[simp] theorem State.advance_halt : (s.advance).halt = s.halt := rfl
@[simp] theorem State.advance_frame : (s.advance).frame = s.frame := rfl
@[simp] theorem State.advance_stop : (s.advance).stop = s.stop := rfl
@[simp] theorem State.advance_pending : (s.advance).pending = s.pending := rfl
@[simp] theorem State.advance_params : (s.advance).params = s.params := rfl
@[simp] theorem State.advance_events : (s.advance).events = s.events := rfl
@[simp] theorem State.advance_calls : (s.advance).calls = s.calls := rfl
@[simp] theorem State.advance_draws : (s.advance).draws = s.draws := rfl
@[simp] theorem State.advance_wait : (s.advance).wait = s.wait := rfl

/-! ### State.skipIf -/

@[simp] theorem State.skipIf_regs (c : Bool) : (s.skipIf c).regs = s.regs := rfl
@[simp] theorem State.skipIf_index (c : Bool) : (s.skipIf c).index = s.index := rfl
@[simp] theorem State.skipIf_pc (c : Bool) : (s.skipIf c).pc = if c then s.pc + 2 else s.pc := rfl
@[simp] theorem State.skipIf_stack (c : Bool) : (s.skipIf c).stack = s.stack := rfl
@[simp] theorem State.skipIf_delay (c : Bool) : (s.skipIf c).delay = s.delay := rfl
@[simp] theorem State.skipIf_sound (c : Bool) : (s.skipIf c).sound = s.sound := rfl
@[simp] theorem State.skipIf_mem (c : Bool) : (s.skipIf c).mem = s.mem := rfl
@[simp] theorem State.skipIf_fault (c : Bool) : (s.skipIf c).fault = s.fault := rfl
@[simp] theorem State.skipIf_halt (c : Bool) : (s.skipIf c).halt = s.halt := rfl
@[simp] theorem State.skipIf_frame (c : Bool) : (s.skipIf c).frame = s.frame := rfl
@[simp] theorem State.skipIf_stop (c : Bool) : (s.skipIf c).stop = s.stop := rfl
@[simp] theorem State.skipIf_pending (c : Bool) : (s.skipIf c).pending = s.pending := rfl
@[simp] theorem State.skipIf_params (c : Bool) : (s.skipIf c).params = s.params := rfl
@[simp] theorem State.skipIf_events (c : Bool) : (s.skipIf c).events = s.events := rfl
@[simp] theorem State.skipIf_calls (c : Bool) : (s.skipIf c).calls = s.calls := rfl
@[simp] theorem State.skipIf_draws (c : Bool) : (s.skipIf c).draws = s.draws := rfl
@[simp] theorem State.skipIf_wait (c : Bool) : (s.skipIf c).wait = s.wait := rfl

/-! ### State.raise -/

@[simp] theorem State.raise_regs (c : Cause) (o : Option Word) (a : Nat) : (s.raise c o a).regs = s.regs := rfl
@[simp] theorem State.raise_index (c : Cause) (o : Option Word) (a : Nat) : (s.raise c o a).index = s.index := rfl
@[simp] theorem State.raise_pc (c : Cause) (o : Option Word) (a : Nat) : (s.raise c o a).pc = s.pc := rfl
@[simp] theorem State.raise_stack (c : Cause) (o : Option Word) (a : Nat) : (s.raise c o a).stack = s.stack := rfl
@[simp] theorem State.raise_delay (c : Cause) (o : Option Word) (a : Nat) : (s.raise c o a).delay = s.delay := rfl
@[simp] theorem State.raise_sound (c : Cause) (o : Option Word) (a : Nat) : (s.raise c o a).sound = s.sound := rfl
@[simp] theorem State.raise_mem (c : Cause) (o : Option Word) (a : Nat) : (s.raise c o a).mem = s.mem := rfl
@[simp] theorem State.raise_fault (c : Cause) (o : Option Word) (a : Nat) : (s.raise c o a).fault = some (s.fault.getD { cause := c, info := { opcode := o, addr := a } }) := rfl
@[simp] theorem State.raise_halt (c : Cause) (o : Option Word) (a : Nat) : (s.raise c o a).halt = s.halt := rfl
@[simp] theorem State.raise_frame (c : Cause) (o : Option Word) (a : Nat) : (s.raise c o a).frame = s.frame := rfl
@[simp] theorem State.raise_stop (c : Cause) (o : Option Word) (a : Nat) : (s.raise c o a).stop = s.stop := rfl
@[simp] theorem State.raise_pending (c : Cause) (o : Option Word) (a : Nat) : (s.raise c o a).pending = s.pending := rfl
@[simp] theorem State.raise_params (c : Cause) (o : Option Word) (a : Nat) : (s.raise c o a).params = s.params := rfl
@[simp] theorem State.raise_events (c : Cause) (o : Option Word) (a : Nat) : (s.raise c o a).events = s.events := rfl
@[simp] theorem State.raise_calls (c : Cause) (o : Option Word) (a : Nat) : (s.raise c o a).calls = s.calls := rfl
@[simp] theorem State.raise_draws (c : Cause) (o : Option Word) (a : Nat) : (s.raise c o a).draws = s.draws := rfl
@[simp] theorem State.raise_wait (c : Cause) (o : Option Word) (a : Nat) : (s.raise c o a).wait = s.wait := rfl

/-! ### State.writeFlag -/

@[simp] theorem State.writeFlag_regs (f : Byte) : (s.writeFlag f).regs = s.regs.set 15 f := rfl
@[simp] theorem State.writeFlag_index (f : Byte) : (s.writeFlag f).index = s.index := rfl
@[simp] theorem State.writeFlag_pc (f : Byte) : (s.writeFlag f).pc = s.pc := rfl
@[simp] theorem State.writeFlag_stack (f : Byte) : (s.writeFlag f).stack = s.stack := rfl
@[simp] theorem State.writeFlag_delay (f : Byte) : (s.writeFlag f).delay = s.delay := rfl
@[simp] theorem State.writeFlag_sound (f : Byte) : (s.writeFlag f).sound = s.sound := rfl
@[simp] theorem State.writeFlag_mem (f : Byte) : (s.writeFlag f).mem = s.mem := rfl
@[simp] theorem State.writeFlag_fault (f : Byte) : (s.writeFlag f).fault = s.fault := rfl
@[simp] theorem State.writeFlag_halt (f : Byte) : (s.writeFlag f).halt = s.halt := rfl
@[simp] theorem State.writeFlag_frame (f : Byte) : (s.writeFlag f).frame = s.frame := rfl
@[simp] theorem State.writeFlag_stop (f : Byte) : (s.writeFlag f).stop = s.stop := rfl
@[simp] theorem State.writeFlag_pending (f : Byte) : (s.writeFlag f).pending = s.pending := rfl
@[simp] theorem State.writeFlag_params (f : Byte) : (s.writeFlag f).params = s.params := rfl
@[simp] theorem State.writeFlag_events (f : Byte) : (s.writeFlag f).events = s.events := rfl
@[simp] theorem State.writeFlag_calls (f : Byte) : (s.writeFlag f).calls = s.calls := rfl
@[simp] theorem State.writeFlag_draws (f : Byte) : (s.writeFlag f).draws = s.draws := rfl
@[simp] theorem State.writeFlag_wait (f : Byte) : (s.writeFlag f).wait = s.wait := rfl

/-! ### State.writeAlu -/

@[simp] theorem State.writeAlu_regs (x : Reg) (r : AluOut) : (s.writeAlu x r).regs = (s.regs.set x.toNat r.value x.isLt).set 15 r.flag := rfl
@[simp] theorem State.writeAlu_index (x : Reg) (r : AluOut) : (s.writeAlu x r).index = s.index := rfl
@[simp] theorem State.writeAlu_pc (x : Reg) (r : AluOut) : (s.writeAlu x r).pc = s.pc := rfl
@[simp] theorem State.writeAlu_stack (x : Reg) (r : AluOut) : (s.writeAlu x r).stack = s.stack := rfl
@[simp] theorem State.writeAlu_delay (x : Reg) (r : AluOut) : (s.writeAlu x r).delay = s.delay := rfl
@[simp] theorem State.writeAlu_sound (x : Reg) (r : AluOut) : (s.writeAlu x r).sound = s.sound := rfl
@[simp] theorem State.writeAlu_mem (x : Reg) (r : AluOut) : (s.writeAlu x r).mem = s.mem := rfl
@[simp] theorem State.writeAlu_fault (x : Reg) (r : AluOut) : (s.writeAlu x r).fault = s.fault := rfl
@[simp] theorem State.writeAlu_halt (x : Reg) (r : AluOut) : (s.writeAlu x r).halt = s.halt := rfl
@[simp] theorem State.writeAlu_frame (x : Reg) (r : AluOut) : (s.writeAlu x r).frame = s.frame := rfl
@[simp] theorem State.writeAlu_stop (x : Reg) (r : AluOut) : (s.writeAlu x r).stop = s.stop := rfl
@[simp] theorem State.writeAlu_pending (x : Reg) (r : AluOut) : (s.writeAlu x r).pending = s.pending := rfl
@[simp] theorem State.writeAlu_params (x : Reg) (r : AluOut) : (s.writeAlu x r).params = s.params := rfl
@[simp] theorem State.writeAlu_events (x : Reg) (r : AluOut) : (s.writeAlu x r).events = s.events := rfl
@[simp] theorem State.writeAlu_calls (x : Reg) (r : AluOut) : (s.writeAlu x r).calls = s.calls := rfl
@[simp] theorem State.writeAlu_draws (x : Reg) (r : AluOut) : (s.writeAlu x r).draws = s.draws := rfl
@[simp] theorem State.writeAlu_wait (x : Reg) (r : AluOut) : (s.writeAlu x r).wait = s.wait := rfl

/-! ### State.send -/

@[simp] theorem State.send_regs (e : Event) : (s.send e).regs = s.regs := rfl
@[simp] theorem State.send_index (e : Event) : (s.send e).index = s.index := rfl
@[simp] theorem State.send_pc (e : Event) : (s.send e).pc = s.pc := rfl
@[simp] theorem State.send_stack (e : Event) : (s.send e).stack = s.stack := rfl
@[simp] theorem State.send_delay (e : Event) : (s.send e).delay = s.delay := rfl
@[simp] theorem State.send_sound (e : Event) : (s.send e).sound = s.sound := rfl
@[simp] theorem State.send_mem (e : Event) : (s.send e).mem = s.mem := rfl
@[simp] theorem State.send_fault (e : Event) : (s.send e).fault = s.fault := rfl
@[simp] theorem State.send_halt (e : Event) : (s.send e).halt = s.halt := rfl
@[simp] theorem State.send_frame (e : Event) : (s.send e).frame = s.frame := rfl
@[simp] theorem State.send_stop (e : Event) : (s.send e).stop = s.stop := rfl
@[simp] theorem State.send_pending (e : Event) : (s.send e).pending = s.pending := rfl
@[simp] theorem State.send_params (e : Event) : (s.send e).params = s.params := rfl
@[simp] theorem State.send_events (e : Event) : (s.send e).events = s.events ++ [e] := rfl
@[simp] theorem State.send_calls (e : Event) : (s.send e).calls = s.calls := rfl
@[simp] theorem State.send_draws (e : Event) : (s.send e).draws = s.draws := rfl
@[simp] theorem State.send_wait (e : Event) : (s.send e).wait = s.wait := rfl

/-! ### State.ask -/

@[simp] theorem State.ask_regs (e : Event) : (s.ask e).regs = s.regs := rfl
@[simp] theorem State.ask_index (e : Event) : (s.ask e).index = s.index := rfl
@[simp] theorem State.ask_pc (e : Event) : (s.ask e).pc = s.pc := rfl
@[simp] theorem State.ask_stack (e : Event) : (s.ask e).stack = s.stack := rfl
@[simp] theorem State.ask_delay (e : Event) : (s.ask e).delay = s.delay := rfl
@[simp] theorem State.ask_sound (e : Event) : (s.ask e).sound = s.sound := rfl
@[simp] theorem State.ask_mem (e : Event) : (s.ask e).mem = s.mem := rfl
@[simp] theorem State.ask_fault (e : Event) : (s.ask e).fault = s.fault := rfl
@[simp] theorem State.ask_halt (e : Event) : (s.ask e).halt = s.halt := rfl
@[simp] theorem State.ask_frame (e : Event) : (s.ask e).frame = s.frame := rfl
@[simp] theorem State.ask_stop (e : Event) : (s.ask e).stop = s.stop := rfl
@[simp] theorem State.ask_pending (e : Event) : (s.ask e).pending = s.pending := rfl
@[simp] theorem State.ask_params (e : Event) : (s.ask e).params = s.params := rfl
@[simp] theorem State.ask_events (e : Event) : (s.ask e).events = s.events ++ [e] := rfl
@[simp] theorem State.ask_calls (e : Event) : (s.ask e).calls = s.calls := rfl
@[simp] theorem State.ask_draws (e : Event) : (s.ask e).draws = s.draws + 1 := rfl
@[simp] theorem State.ask_wait (e : Event) : (s.ask e).wait = s.wait := rfl

/-! ### State.hold -/

@[simp] theorem State.hold_regs (e : Event) (p : Pending) : (s.hold e p).regs = s.regs := rfl
@[simp] theorem State.hold_index (e : Event) (p : Pending) : (s.hold e p).index = s.index := rfl
@[simp] theorem State.hold_pc (e : Event) (p : Pending) : (s.hold e p).pc = s.pc := rfl
@[simp] theorem State.hold_stack (e : Event) (p : Pending) : (s.hold e p).stack = s.stack := rfl
@[simp] theorem State.hold_delay (e : Event) (p : Pending) : (s.hold e p).delay = s.delay := rfl
@[simp] theorem State.hold_sound (e : Event) (p : Pending) : (s.hold e p).sound = s.sound := rfl
@[simp] theorem State.hold_mem (e : Event) (p : Pending) : (s.hold e p).mem = s.mem := rfl
@[simp] theorem State.hold_fault (e : Event) (p : Pending) : (s.hold e p).fault = s.fault := rfl
@[simp] theorem State.hold_halt (e : Event) (p : Pending) : (s.hold e p).halt = s.halt := rfl
@[simp] theorem State.hold_frame (e : Event) (p : Pending) : (s.hold e p).frame = s.frame := rfl
@[simp] theorem State.hold_stop (e : Event) (p : Pending) : (s.hold e p).stop = s.stop := rfl
@[simp] theorem State.hold_pending (e : Event) (p : Pending) : (s.hold e p).pending = some p := rfl
@[simp] theorem State.hold_params (e : Event) (p : Pending) : (s.hold e p).params = s.params := rfl
@[simp] theorem State.hold_events (e : Event) (p : Pending) : (s.hold e p).events = s.events ++ [e] := rfl
@[simp] theorem State.hold_calls (e : Event) (p : Pending) : (s.hold e p).calls = s.calls := rfl
@[simp] theorem State.hold_draws (e : Event) (p : Pending) : (s.hold e p).draws = s.draws := rfl
@[simp] theorem State.hold_wait (e : Event) (p : Pending) : (s.hold e p).wait = s.wait := rfl

/-! ### State.redraw -/

@[simp] theorem State.redraw_regs : (s.redraw).regs = s.regs := rfl
@[simp] theorem State.redraw_index : (s.redraw).index = s.index := rfl
@[simp] theorem State.redraw_pc : (s.redraw).pc = s.pc := rfl
@[simp] theorem State.redraw_stack : (s.redraw).stack = s.stack := rfl
@[simp] theorem State.redraw_delay : (s.redraw).delay = s.delay := rfl
@[simp] theorem State.redraw_sound : (s.redraw).sound = s.sound := rfl
@[simp] theorem State.redraw_mem : (s.redraw).mem = s.mem := rfl
@[simp] theorem State.redraw_fault : (s.redraw).fault = s.fault := rfl
@[simp] theorem State.redraw_halt : (s.redraw).halt = s.halt := rfl
@[simp] theorem State.redraw_frame : (s.redraw).frame = s.frame := rfl
@[simp] theorem State.redraw_stop : (s.redraw).stop = s.stop := rfl
@[simp] theorem State.redraw_pending : (s.redraw).pending = s.pending := rfl
@[simp] theorem State.redraw_params : (s.redraw).params = s.params := rfl
@[simp] theorem State.redraw_events : (s.redraw).events = s.events := rfl
@[simp] theorem State.redraw_calls : (s.redraw).calls = s.calls := rfl
@[simp] theorem State.redraw_draws : (s.redraw).draws = s.draws + 1 := rfl
@[simp] theorem State.redraw_wait : (s.redraw).wait = Config.wait s.draws := rfl

/-! ### State.answerPump -/

@[simp] theorem State.answerPump_regs (q : Bool) : (s.answerPump q).regs = s.regs := rfl
@[simp] theorem State.answerPump_index (q : Bool) : (s.answerPump q).index = s.index := rfl
@[simp] theorem State.answerPump_pc (q : Bool) : (s.answerPump q).pc = s.pc := rfl
@[simp] theorem State.answerPump_stack (q : Bool) : (s.answerPump q).stack = s.stack := rfl
@[simp] theorem State.answerPump_delay (q : Bool) : (s.answerPump q).delay = s.delay := rfl
@[simp] theorem State.answerPump_sound (q : Bool) : (s.answerPump q).sound = s.sound := rfl
@[simp] theorem State.answerPump_mem (q : Bool) : (s.answerPump q).mem = s.mem := rfl
@[simp] theorem State.answerPump_fault (q : Bool) : (s.answerPump q).fault = s.fault := rfl
@[simp] theorem State.answerPump_halt (q : Bool) : (s.answerPump q).halt = s.halt := rfl
@[simp] theorem State.answerPump_frame (q : Bool) : (s.answerPump q).frame = none := rfl
@[simp] theorem State.answerPump_stop (q : Bool) : (s.answerPump q).stop = some (s.frameHalted || q) := rfl
@[simp] theorem State.answerPump_pending (q : Bool) : (s.answerPump q).pending = none := rfl
@[simp] theorem State.answerPump_params (q : Bool) : (s.answerPump q).params = s.params := rfl
@[simp] theorem State.answerPump_events (q : Bool) : (s.answerPump q).events = s.events := rfl
@[simp] theorem State.answerPump_calls (q : Bool) : (s.answerPump q).calls = s.calls := rfl
@[simp] theorem State.answerPump_draws (q : Bool) : (s.answerPump q).draws = s.draws := rfl
@[simp] theorem State.answerPump_wait (q : Bool) : (s.answerPump q).wait = s.wait := rfl

/-! ### State.startFrame -/

@[simp] theorem State.startFrame_regs (n : Nat) : (s.startFrame n).regs = s.regs := rfl
@[simp] theorem State.startFrame_index (n : Nat) : (s.startFrame n).index = s.index := rfl
@[simp] theorem State.startFrame_pc (n : Nat) : (s.startFrame n).pc = s.pc := rfl
@[simp] theorem State.startFrame_stack (n : Nat) : (s.startFrame n).stack = s.stack := rfl
@[simp] theorem State.startFrame_delay (n : Nat) : (s.startFrame n).delay = countDown s.delay := rfl
@[simp] theorem State.startFrame_sound (n : Nat) : (s.startFrame n).sound = countDown s.sound := rfl
@[simp] theorem State.startFrame_mem (n : Nat) : (s.startFrame n).mem = s.mem := rfl
@[simp] theorem State.startFrame_fault (n : Nat) : (s.startFrame n).fault = s.fault := rfl
@[simp] theorem State.startFrame_halt (n : Nat) : (s.startFrame n).halt = s.halt := rfl
@[simp] theorem State.startFrame_frame (n : Nat) : (s.startFrame n).frame = some { left := n, halted := false } := rfl
@[simp] theorem State.startFrame_stop (n : Nat) : (s.startFrame n).stop = none := rfl
@[simp] theorem State.startFrame_pending (n : Nat) : (s.startFrame n).pending = s.pending := rfl
@[simp] theorem State.startFrame_params (n : Nat) : (s.startFrame n).params = s.params := rfl
@[simp] theorem State.startFrame_events (n : Nat) : (s.startFrame n).events = s.events ++ [.buzz (s.sound != 0)] := rfl
@[simp] theorem State.startFrame_calls (n : Nat) : (s.startFrame n).calls = s.calls := rfl
@[simp] theorem State.startFrame_draws (n : Nat) : (s.startFrame n).draws = s.draws := rfl
@[simp] theorem State.startFrame_wait (n : Nat) : (s.startFrame n).wait = s.wait := rfl

/-! ### State.beginCycle -/

@[simp] theorem State.beginCycle_regs : (s.beginCycle).regs = s.regs := rfl
@[simp] theorem State.beginCycle_index : (s.beginCycle).index = s.index := rfl
@[simp] theorem State.beginCycle_pc : (s.beginCycle).pc = s.pc := rfl
@[simp] theorem State.beginCycle_stack : (s.beginCycle).stack = s.stack := rfl
@[simp] theorem State.beginCycle_delay : (s.beginCycle).delay = s.delay := rfl
@[simp] theorem State.beginCycle_sound : (s.beginCycle).sound = s.sound := rfl
@[simp] theorem State.beginCycle_mem : (s.beginCycle).mem = s.mem := rfl
@[simp] theorem State.beginCycle_fault : (s.beginCycle).fault = s.fault := rfl
@[simp] theorem State.beginCycle_halt : (s.beginCycle).halt = false := rfl
@[simp] theorem State.beginCycle_frame : (s.beginCycle).frame = s.frame.map fun f => { f with left := f.left - 1 } := rfl
@[simp] theorem State.beginCycle_stop : (s.beginCycle).stop = s.stop := rfl
@[simp] theorem State.beginCycle_pending : (s.beginCycle).pending = s.pending := rfl
@[simp] theorem State.beginCycle_params : (s.beginCycle).params = s.params := rfl
@[simp] theorem State.beginCycle_events : (s.beginCycle).events = s.events := rfl
@[simp] theorem State.beginCycle_calls : (s.beginCycle).calls = s.calls := rfl
@[simp] theorem State.beginCycle_draws : (s.beginCycle).draws = s.draws := rfl
@[simp] theorem State.beginCycle_wait : (s.beginCycle).wait = s.wait := rfl

/-! ### Registers -/

@[simp] theorem State.readReg_writeReg_self (r : Reg) (b : Byte) : (s.writeReg r b).readReg r = b := by
  simp [State.readReg, Vector.get_eq_getElem]

@[simp] theorem State.readReg_writeReg_ne (r q : Reg) (b : Byte) (h : q ≠ r) :
    (s.writeReg r b).readReg q = s.readReg q := by
  have hne : r.toNat ≠ q.toNat := fun e => h (BitVec.eq_of_toNat_eq e.symm)
  simp [State.readReg, Vector.get_eq_getElem, hne]

/-- A read of any register after a write of one. -/
theorem State.readReg_writeReg (r q : Reg) (b : Byte) :
    (s.writeReg r b).readReg q = if q = r then b else s.readReg q := by
  by_cases h : q = r
  · subst h; simp
  · simp [h]

/-- Reading depends on the register file alone. -/
theorem State.readReg_congr {s t : State} (h : t.regs = s.regs) (q : Reg) : t.readReg q = s.readReg q := by
  simp [State.readReg, h]

@[simp] theorem State.readReg_writeFlag (f : Byte) (q : Reg) :
    (s.writeFlag f).readReg q = if q = flagReg then f else s.readReg q :=
  s.readReg_writeReg flagReg q f

/-- R161: the flag is written last. -/
@[simp] theorem State.readReg_writeAlu (x q : Reg) (r : AluOut) :
    (s.writeAlu x r).readReg q = if q = flagReg then r.flag else if q = x then r.value else s.readReg q := by
  simp [State.writeAlu, State.readReg_writeReg]

@[simp] theorem State.readReg_setIndex (v : Word) (reg : Reg) : (s.setIndex v).readReg reg = s.readReg reg := rfl
@[simp] theorem State.readReg_setPc (v : Word) (reg : Reg) : (s.setPc v).readReg reg = s.readReg reg := rfl
@[simp] theorem State.readReg_setDelay (v : Byte) (reg : Reg) : (s.setDelay v).readReg reg = s.readReg reg := rfl
@[simp] theorem State.readReg_setSound (v : Byte) (reg : Reg) : (s.setSound v).readReg reg = s.readReg reg := rfl
@[simp] theorem State.readReg_setStack (l : List Word) (reg : Reg) : (s.setStack l).readReg reg = s.readReg reg := rfl
@[simp] theorem State.readReg_push (v : Word) (reg : Reg) : (s.push v).readReg reg = s.readReg reg := rfl
@[simp] theorem State.readReg_advance (reg : Reg) : (s.advance).readReg reg = s.readReg reg := rfl
@[simp] theorem State.readReg_skipIf (c : Bool) (reg : Reg) : (s.skipIf c).readReg reg = s.readReg reg := rfl
@[simp] theorem State.readReg_raise (c : Cause) (o : Option Word) (a : Nat) (reg : Reg) : (s.raise c o a).readReg reg = s.readReg reg := rfl
@[simp] theorem State.readReg_send (e : Event) (reg : Reg) : (s.send e).readReg reg = s.readReg reg := rfl
@[simp] theorem State.readReg_ask (e : Event) (reg : Reg) : (s.ask e).readReg reg = s.readReg reg := rfl
@[simp] theorem State.readReg_hold (e : Event) (p : Pending) (reg : Reg) : (s.hold e p).readReg reg = s.readReg reg := rfl
@[simp] theorem State.readReg_redraw (reg : Reg) : (s.redraw).readReg reg = s.readReg reg := rfl
@[simp] theorem State.readReg_answerPump (q : Bool) (reg : Reg) : (s.answerPump q).readReg reg = s.readReg reg := rfl
@[simp] theorem State.readReg_startFrame (n : Nat) (reg : Reg) : (s.startFrame n).readReg reg = s.readReg reg := rfl
@[simp] theorem State.readReg_beginCycle (reg : Reg) : (s.beginCycle).readReg reg = s.readReg reg := rfl

end Sys2Proof.Machine
end

