-- ==== Sys2Proof/Laws/Ops.lean ====
section
/-! SUPPORT. One lemma per shared operation that says everything it can do: block register moves, the call stack, the faults,
a wait, the frame's accounting, the host's calls. -/

namespace Sys2Proof.Machine

/-! ## Block register moves (R202, R203) -/

/-- Register `j` after a block load from index `k` on. -/
theorem loadFrom_getElem (k : Nat) (bs : List Byte) (v : Vector Byte 16) (j : Nat) (hj : j < 16) :
    (loadFrom k bs v)[j] = if k ≤ j then (bs[j - k]?).getD v[j] else v[j] := by
  induction bs generalizing k v with
  | nil => simp [loadFrom]
  | cons b bs ih =>
    rw [loadFrom, ih]
    by_cases h1 : k + 1 ≤ j
    · have h2 : k ≤ j := by omega
      rw [if_pos h1, if_pos h2, show j - k = (j - (k + 1)) + 1 by omega, List.getElem?_cons_succ,
        Vector.getElem_setIfInBounds_ne (by omega) (by omega)]
    · rw [if_neg h1]
      by_cases h2 : k = j
      · subst h2; simp
      · rw [if_neg (by omega), Vector.getElem_setIfInBounds_ne (by omega) (by omega)]

/-- Any register after FX65's load of a list of bytes. -/
theorem State.readReg_loadRegList (s : State) (bs : List Byte) (r : Reg) :
    (s.loadRegList bs).readReg r = (bs[r.toNat]?).getD (s.readReg r) := by
  have h := loadFrom_getElem 0 bs s.regs r.toNat r.isLt
  simpa [State.readReg, Vector.get_eq_getElem] using h

@[simp] theorem State.regList_length (s : State) (x : Reg) : (s.regList x).length = x.toNat + 1 := by
  have := x.isLt
  simp [State.regList]; omega

/-- Byte `k` of FX55's list is V[k], for k up to X. -/
theorem State.regList_getElem? (s : State) (x r : Reg) (h : r.toNat ≤ x.toNat) :
    (s.regList x)[r.toNat]? = some (s.readReg r) := by
  have := r.isLt
  rw [State.regList, List.getElem?_take, if_pos (by omega)]
  simp [State.readReg, Vector.get_eq_getElem]

/-! ## Faults -/

/-- On an unfaulted block, a raise sets the mark to what it was given (R240). -/
theorem State.raise_fault_of_none (s : State) (h : s.fault = none) (c : Cause) (o : Option Word) (a : Nat) :
    (s.raise c o a).fault = some { cause := c, info := { opcode := o, addr := a } } := by
  simp [h]

/-- A raise always leaves a mark. -/
theorem State.raise_fault_ne_none (s : State) (c : Cause) (o : Option Word) (a : Nat) :
    (s.raise c o a).fault ≠ none := by simp

/-- The fetch address of the executing instruction is recovered from the advanced PC (R24). -/
theorem State.fetchAddr_advance (s : State) : s.advance.fetchAddr = s.pc.toNat := by
  simp [State.fetchAddr]

/-! ## A wait (R263) -/

/-- Everything one step of a wait can do. -/
theorem State.poll_cases (s : State) (p : Pending) :
    (s.wait = none ∧ s.poll p = s) ∨
    (∃ n, s.wait = some (n + 1) ∧ s.poll p = { s with wait := some n }) ∨
    (s.wait = some 0 ∧ s.poll p = s.answer p) := by
  unfold State.poll
  split
  · exact Or.inl ⟨‹_›, rfl⟩
  · exact Or.inr (Or.inl ⟨_, ‹_›, rfl⟩)
  · exact Or.inr (Or.inr ⟨‹_›, rfl⟩)

/-- Everything an answered key request can do (R223). -/
theorem State.answerKey_cases (s : State) (x : Reg) (r : Option Byte) :
    (∃ k, r = some k ∧ s.answerKey x r = { s.writeReg x k with pending := none }) ∨
    (r = none ∧ s.answerKey x r = { s with halt := true, pending := none }) := by
  cases r with
  | some k => exact Or.inl ⟨k, rfl, rfl⟩
  | none => exact Or.inr ⟨rfl, rfl⟩

/-! ## The frame (R251-R256) -/

/-- Everything a finished cycle can do to its frame. -/
theorem State.settleFrame_cases (s : State) :
    s.settleFrame = s ∨
    (∃ f, s.frame = some f ∧ s.fault ≠ none ∧ s.settleFrame = { s with frame := none }) ∨
    (∃ f, s.frame = some f ∧ s.fault = none ∧ s.pending = none ∧ s.halt = true ∧
      s.params.haltPolicy = .stopNow ∧ s.settleFrame = { s with frame := none, stop := some true }) ∨
    (∃ f, s.frame = some f ∧ s.fault = none ∧ s.pending = none ∧ s.halt = true ∧
      s.params.haltPolicy = .finishBatch ∧
      s.settleFrame = { s with frame := some { f with halted := true } }) := by
  unfold State.settleFrame
  cases hf : s.frame with
  | none => exact Or.inl rfl
  | some f =>
    cases h1 : s.fault with
    | some m => exact Or.inr (Or.inl ⟨f, rfl, by simp, by simp⟩)
    | none =>
      cases h2 : s.pending with
      | some p => exact Or.inl (by simp)
      | none =>
        cases h3 : s.halt with
        | false => exact Or.inl (by simp)
        | true =>
          cases h4 : s.params.haltPolicy with
          | stopNow => exact Or.inr (Or.inr (Or.inl ⟨f, rfl, rfl, rfl, rfl, rfl, by simp⟩))
          | finishBatch => exact Or.inr (Or.inr (Or.inr ⟨f, rfl, rfl, rfl, rfl, rfl, by simp⟩))

/-- The count down in numbers: one less, stopping at 0 (R252). -/
theorem countDown_toNat (t : Byte) : (countDown t).toNat = t.toNat - 1 := by
  revert t; decide

/-! ## The host's calls (R281, R283, R284) -/

/-- Everything a host call can do. -/
theorem State.hostCall_cases (s : State) (c : HostCall) :
    (c = .reset ∧ s.hostCall c = .next s.hostReset) ∨
    (∃ a bs, c = .load a bs ∧ s.hostCall c = .next (s.hostLoad a bs)) ∨
    (∃ n, c = .frame n ∧ s.fault = none ∧ s.hostCall c = .next (s.startFrame n)) ∨
    (∃ n, c = .frame n ∧ s.fault ≠ none ∧ s.hostCall c = .refused .frameOnFaultedBlock) := by
  cases c with
  | reset => exact Or.inl ⟨rfl, rfl⟩
  | load a bs => exact Or.inr (Or.inl ⟨a, bs, rfl, rfl⟩)
  | frame n =>
    cases h : s.fault with
    | none => exact Or.inr (Or.inr (Or.inl ⟨n, rfl, rfl, by simp [State.hostCall, h]⟩))
    | some m => exact Or.inr (Or.inr (Or.inr ⟨n, rfl, by simp, by simp [State.hostCall, h]⟩))

/-- Everything `load` can do. -/
theorem State.hostLoad_cases (s : State) (a : Nat) (bs : List Byte) :
    (a + bs.length ≤ s.params.memSize.bytes ∧
      s.hostLoad a bs = { s with mem := Memory.writeList s.mem a bs }) ∨
    (s.params.memSize.bytes < a + bs.length ∧ s.hostLoad a bs = s.raise .outOfBoundsAccess none a) := by
  rcases s.memSliceWrite_cases a bs with ⟨h, e⟩ | ⟨h, e⟩
  · exact Or.inl ⟨h, by simp [State.hostLoad, e]⟩
  · exact Or.inr ⟨h, by simp [State.hostLoad, e]⟩

end Sys2Proof.Machine
end

