-- ==== Sys2Proof/Laws/PerInstr.lean ====
section
/-! SUPPORT. Per instruction: the bits of its word that its row of the opcode table fixes have the row's values (R88, R90). -/

namespace Sys2Proof.Laws.RowBits

open Sys2Proof

/-- The word of an instruction agrees with its row's match under its row's mask. -/
def Statement (i : Instr) : Prop := encode i &&& rowMask i = rowMatch i

theorem cls : Statement (.cls) := rfl

theorem ret : Statement (.ret) := rfl

theorem jp (nnn : Addr12) : Statement (.jp nnn) := (formAddr_and_F000 0x1 nnn).trans rfl

theorem call (nnn : Addr12) : Statement (.call nnn) := (formAddr_and_F000 0x2 nnn).trans rfl

theorem seImm (x : Reg) (nn : Byte) : Statement (.seImm x nn) := (formImm_and_F000 0x3 x nn).trans rfl

theorem sneImm (x : Reg) (nn : Byte) : Statement (.sneImm x nn) := (formImm_and_F000 0x4 x nn).trans rfl

theorem seReg (x : Reg) (y : Reg) : Statement (.seReg x y) := (formRR_and_F00F 0x5 x y 0x0).trans rfl

theorem sneReg (x : Reg) (y : Reg) : Statement (.sneReg x y) := (formRR_and_F00F 0x9 x y 0x0).trans rfl

theorem ldImm (x : Reg) (nn : Byte) : Statement (.ldImm x nn) := (formImm_and_F000 0x6 x nn).trans rfl

theorem addImm (x : Reg) (nn : Byte) : Statement (.addImm x nn) := (formImm_and_F000 0x7 x nn).trans rfl

theorem ldReg (x : Reg) (y : Reg) : Statement (.ldReg x y) := (formRR_and_F00F 0x8 x y 0x0).trans rfl

theorem orReg (x : Reg) (y : Reg) : Statement (.orReg x y) := (formRR_and_F00F 0x8 x y 0x1).trans rfl

theorem andReg (x : Reg) (y : Reg) : Statement (.andReg x y) := (formRR_and_F00F 0x8 x y 0x2).trans rfl

theorem xorReg (x : Reg) (y : Reg) : Statement (.xorReg x y) := (formRR_and_F00F 0x8 x y 0x3).trans rfl

theorem addReg (x : Reg) (y : Reg) : Statement (.addReg x y) := (formRR_and_F00F 0x8 x y 0x4).trans rfl

theorem subReg (x : Reg) (y : Reg) : Statement (.subReg x y) := (formRR_and_F00F 0x8 x y 0x5).trans rfl

theorem shrReg (x : Reg) (y : Reg) : Statement (.shrReg x y) := (formRR_and_F00F 0x8 x y 0x6).trans rfl

theorem subnReg (x : Reg) (y : Reg) : Statement (.subnReg x y) := (formRR_and_F00F 0x8 x y 0x7).trans rfl

theorem shlReg (x : Reg) (y : Reg) : Statement (.shlReg x y) := (formRR_and_F00F 0x8 x y 0xE).trans rfl

theorem ldIndex (nnn : Addr12) : Statement (.ldIndex nnn) := (formAddr_and_F000 0xA nnn).trans rfl

theorem jpV0 (nnn : Addr12) : Statement (.jpV0 nnn) := (formAddr_and_F000 0xB nnn).trans rfl

theorem rnd (x : Reg) (nn : Byte) : Statement (.rnd x nn) := (formImm_and_F000 0xC x nn).trans rfl

theorem drw (x : Reg) (y : Reg) (n : Nibble) : Statement (.drw x y n) := (formRR_and_F000 0xD x y n).trans rfl

theorem skp (x : Reg) : Statement (.skp x) := (formXsub_and_F0FF 0xE x 0x9E).trans rfl

theorem sknp (x : Reg) : Statement (.sknp x) := (formXsub_and_F0FF 0xE x 0xA1).trans rfl

theorem ldFromDelay (x : Reg) : Statement (.ldFromDelay x) := (formXsub_and_F0FF 0xF x 0x07).trans rfl

theorem ldDelay (x : Reg) : Statement (.ldDelay x) := (formXsub_and_F0FF 0xF x 0x15).trans rfl

theorem ldSound (x : Reg) : Statement (.ldSound x) := (formXsub_and_F0FF 0xF x 0x18).trans rfl

theorem waitKey (x : Reg) : Statement (.waitKey x) := (formXsub_and_F0FF 0xF x 0x0A).trans rfl

theorem addIndex (x : Reg) : Statement (.addIndex x) := (formXsub_and_F0FF 0xF x 0x1E).trans rfl

theorem storeRegs (x : Reg) : Statement (.storeRegs x) := (formXsub_and_F0FF 0xF x 0x55).trans rfl

theorem loadRegs (x : Reg) : Statement (.loadRegs x) := (formXsub_and_F0FF 0xF x 0x65).trans rfl

end Sys2Proof.Laws.RowBits
end

