-- ==== Sys2Proof/Laws/Step.lean ====
section
/-! SUPPORT. The inversion of one step, and what a ready block's step runs. -/

namespace Sys2Proof.Machine

@[simp] theorem mapNext_next (f : State → State) (s : State) : mapNext f (.next s) = .next (f s) := rfl

/-- A passed-on outcome is a next state only from one. -/
theorem mapNext_eq_next {f : State → State} {o : Host.Outcome State Fault Refusal} {t : State}
    (h : mapNext f o = .next t) : ∃ u, o = .next u ∧ t = f u := by
  cases o with
  | next u => exact ⟨u, rfl, by simpa [mapNext] using h.symm⟩
  | fault r => simp [mapNext] at h
  | refused r => simp [mapNext] at h

/-- Everything a cycle can do: the fetch's fault, the decode's fault, or the instruction's meaning (R95, R244). -/
theorem cycle_cases (s : State) :
    (s.params.memSize.bytes < s.pc.toNat + 2 ∧
      cycle s = .next (s.raise .outOfBoundsAccess none s.pc.toNat)) ∨
    (∃ w, s.fetch = some w ∧ decode w = .unsupportedInstruction w ∧
      cycle s = .next (s.advance.raise .unsupportedInstruction (some w) s.pc.toNat)) ∨
    (∃ w i, s.fetch = some w ∧ decode w = .instr i ∧ cycle s = exec i s.advance) := by
  rcases s.fetch_cases with ⟨_, e⟩ | ⟨h, e⟩
  · cases hd : decode (wordOf (Memory.read s.mem s.pc.toNat) (Memory.read s.mem (s.pc.toNat + 1))) with
    | instr i => exact Or.inr (Or.inr ⟨_, i, e, hd, by simp [cycle, e, dispatchWord, hd]⟩)
    | unsupportedInstruction w =>
      have hw : w = wordOf (Memory.read s.mem s.pc.toNat) (Memory.read s.mem (s.pc.toNat + 1)) := by
        unfold decode at hd
        split at hd
        · simp at hd
        · exact (Decoded.unsupportedInstruction.inj hd).symm
      subst hw
      exact Or.inr (Or.inl ⟨_, e, hd, by simp [cycle, e, dispatchWord, hd, State.fetchAddr_advance]⟩)
  · exact Or.inl ⟨h, by simp [cycle, e]⟩

/-- Everything a step can do: stop on a faulted block, make a host call, wait, end a frame, or run a cycle. -/
theorem step_cases (s : State) :
    (∃ m, s.fault = some m ∧ s.calls = [] ∧ step s = .fault (.blockFaulted m)) ∨
    (∃ c cs, s.Makes c cs ∧ step s = State.hostCall { s with calls := cs } c) ∨
    (∃ p, s.fault = none ∧ s.pending = some p ∧ step s = .next (s.poll p).settleFrame) ∨
    (∃ f, s.fault = none ∧ s.pending = none ∧ s.frame = some f ∧ f.left = 0 ∧ step s = .next s.finishFrame) ∨
    (s.Ready ∧ step s = frameCycle s) := by
  unfold step blockStep State.Ready State.Makes
  cases h1 : s.fault with
  | some m =>
    cases h2 : s.calls with
    | nil => exact Or.inl ⟨m, rfl, rfl, rfl⟩
    | cons c cs => exact Or.inr (Or.inl ⟨c, cs, ⟨rfl, by simp⟩, rfl⟩)
  | none =>
    cases h2 : s.pending with
    | some p => exact Or.inr (Or.inr (Or.inl ⟨p, rfl, rfl, rfl⟩))
    | none =>
      cases h3 : s.frame with
      | some f =>
        by_cases h4 : f.left = 0
        · exact Or.inr (Or.inr (Or.inr (Or.inl ⟨f, rfl, rfl, rfl, h4, by simp [h4]⟩)))
        · exact Or.inr (Or.inr (Or.inr (Or.inr ⟨⟨rfl, rfl, by simpa using h4⟩, by simp [h4]⟩)))
      | none =>
        cases h4 : s.calls with
        | nil => exact Or.inr (Or.inr (Or.inr (Or.inr ⟨⟨rfl, rfl, by simp⟩, rfl⟩)))
        | cons c cs => exact Or.inr (Or.inl ⟨c, cs, ⟨rfl, by simp⟩, rfl⟩)

/-- A ready block's step is a cycle. -/
theorem step_of_ready (s : State) (h : s.Ready) : step s = frameCycle s := by
  obtain ⟨h1, h2, h3⟩ := h
  unfold step blockStep
  rw [h1, h2]
  cases hf : s.frame with
  | some f => simp only [hf] at h3; simp [h3]
  | none => simp only [hf] at h3; simp [h3]

/-- A step that makes a host call is that call. -/
theorem step_of_makes (s : State) (c : HostCall) (cs : List HostCall) (h : s.Makes c cs) :
    step s = State.hostCall { s with calls := cs } c := by
  obtain ⟨hc, hf⟩ := h
  unfold step blockStep
  cases h1 : s.fault with
  | some m => rw [hc]
  | none =>
    obtain ⟨h2, h3⟩ := hf.resolve_left (by simp [h1])
    rw [h2, h3, hc]

/-- What is stored where the step fetches is what it fetches (the host's probe). -/
theorem fetch_withFetchWord (s : State) (hm : Memory.wf s.mem) (w : Word) :
    (s.withFetchWord 16 w.toNat).fetch = some w ∧ (s.withFetchWord 16 w.toNat).Ready := by
  have hw : BitVec.ofNat 16 (w.toNat % 2 ^ 16) = w := by
    apply BitVec.eq_of_toNat_eq; have := w.isLt; simp; omega
  refine ⟨?_, rfl, rfl, rfl⟩
  have key : ∀ pc : Word, pc.toNat + 2 ≤ s.params.memSize.bytes →
      State.fetch { s with
        pc := pc, mem := Memory.writeList s.mem pc.toNat [hiByte w, loByte w],
        fault := none, pending := none, frame := none, calls := [] } = some w := by
    intro pc hpc
    simp only [State.fetch, State.memRead16, State.inRange_iff, hpc, if_true,
      Memory.read_writeList _ hm]
    simp
  simp only [State.withFetchWord, hw]
  split_ifs with hr
  · exact key s.pc ((State.inRange_iff _ _ _).1 hr)
  · apply key
    cases s.params.memSize <;> simp [MemSize.bytes]

end Sys2Proof.Machine
end

