-- ==== Sys2Proof/Tests/Slice0.lean ====
section
/-! SUPPORT. The model's own tests: ill-formed terms refused, words written out from 30_encoding.md R88, single steps with the
results of 95_test_vectors.md (each names its vector), and, for every obligation with hypotheses, a witness that meets them. -/

namespace Sys2Proof.Tests

open Sys2Proof Sys2Proof.Machine

/-! ## Helpers -/

/-- Registers written one after the other. -/
def withRegs (l : List (Reg × Byte)) (s : State) : State := l.foldl (fun s p => s.writeReg p.1 p.2) s

/-- Bytes of memory written one after the other. -/
def withMem (l : List (Nat × Byte)) (s : State) : State :=
  { s with mem := l.foldl (fun m p => Memory.write m p.1 p.2) s.mem }

/-- The reset state with a word at 0x0200. -/
def start (w : Nat) : State := State.reset.withFetchWord 16 w

/-- The reset state with PC where an instruction fetched at 0x0200 runs. -/
def running : State := { State.reset with pc := 0x0202 }

/-- A state under the larger memory. -/
def large (s : State) : State := { s with params := { s.params with memSize := .later } }

/-- A state under a stack limit. -/
def limited (k : Nat) (s : State) : State := { s with params := { s.params with stackLimit := some k } }

/-- A part of the next state, if there is one. -/
def after {α : Type} (f : State → α) : Host.Outcome State Fault Refusal → Option α
  | .next s => some (f s)
  | _ => none

/-- A fault mark, from the numbers of a vector. -/
def mark (c : Cause) (o : Option Word) (a : Nat) : Option FaultMark := some ⟨c, ⟨o, a⟩⟩

/-! ## Well-formedness: each check refuses an ill-formed term -/

/-- V-DE27. -/
theorem test_three_character_pattern_refused : patternTextOk ['1', '2', '3'] = false := by decide

theorem test_five_character_pattern_refused :
    tableTextOk [(['1', 'N', 'N', 'N'], 1), (['1', '2', '3', '4', '5'], 2)] = false := by decide

theorem test_malformed_table_not_built :
    buildTable [(['1', 'N', 'N', 'N'], 1), (['1', '2', '3'], 2)] = none := by decide

theorem test_opcode_rows_accepted : tableTextOk opcodeRows = true := by decide

/-- R7: a limit is at least 1. -/
theorem test_stack_limit_zero_refused : Params.wellFormed { Params.default with stackLimit := some 0 } = false := by
  decide

theorem test_default_params_accepted :
    Params.default.wellFormed = true ∧ Params.wellFormed { Params.default with stackLimit := some 1 } = true := by
  decide

/-! ## Decoding: words written out from R88 -/

/-- F_fixed, F_addr. -/
theorem test_decode_control :
    decode 0b0000000011100000 = .instr .cls ∧ decode 0b0000000011101110 = .instr .ret ∧
    decode 0b0001101010111100 = .instr (.jp 0xABC) ∧ decode 0b0010001100000001 = .instr (.call 0x301) ∧
    decode 0b1011111111111111 = .instr (.jpV0 0xFFF) := by decide

theorem test_decode_skips :
    decode 0b0011101001011111 = .instr (.seImm 0xA 0x5F) ∧ decode 0x4A5F = .instr (.sneImm 0xA 0x5F) ∧
    decode 0b0101101010110000 = .instr (.seReg 0xA 0xB) ∧ decode 0x9AB0 = .instr (.sneReg 0xA 0xB) ∧
    decode 0b1110000110011110 = .instr (.skp 0x1) ∧ decode 0xE1A1 = .instr (.sknp 0x1) := by decide

theorem test_decode_alu_immediate :
    decode 0b0110111110101011 = .instr (.ldImm 0xF 0xAB) ∧ decode 0x7F01 = .instr (.addImm 0xF 0x01) ∧
    decode 0b1100000000001111 = .instr (.rnd 0x0 0x0F) := by decide

theorem test_decode_alu_register :
    decode 0x8AB0 = .instr (.ldReg 0xA 0xB) ∧ decode 0x8AB1 = .instr (.orReg 0xA 0xB) ∧
    decode 0x8AB2 = .instr (.andReg 0xA 0xB) ∧ decode 0x8AB3 = .instr (.xorReg 0xA 0xB) ∧
    decode 0x8AB4 = .instr (.addReg 0xA 0xB) ∧ decode 0x8AB5 = .instr (.subReg 0xA 0xB) ∧
    decode 0b1000101010110110 = .instr (.shrReg 0xA 0xB) ∧ decode 0x8AB7 = .instr (.subnReg 0xA 0xB) ∧
    decode 0x8ABE = .instr (.shlReg 0xA 0xB) := by decide

theorem test_decode_index :
    decode 0b1010101111001101 = .instr (.ldIndex 0xBCD) ∧ decode 0xF31E = .instr (.addIndex 0x3) ∧
    decode 0b1111001001010101 = .instr (.storeRegs 0x2) ∧ decode 0xF065 = .instr (.loadRegs 0x0) := by decide

theorem test_decode_timers :
    decode 0b1111001100000111 = .instr (.ldFromDelay 0x3) ∧ decode 0xF315 = .instr (.ldDelay 0x3) ∧
    decode 0xF318 = .instr (.ldSound 0x3) ∧ decode 0xF10A = .instr (.waitKey 0x1) := by decide

theorem test_decode_video : decode 0b1101000100101111 = .instr (.drw 0x1 0x2 0xF) := by decide

/-- V-DE3, V-DE4, V-DE8, V-DE10, V-DE11. -/
theorem test_illegal_words_refused :
    decode 0x0000 = .unsupportedInstruction 0x0000 ∧ decode 0x0123 = .unsupportedInstruction 0x0123 ∧
    decode 0x5AB1 = .unsupportedInstruction 0x5AB1 ∧ decode 0x8AB8 = .unsupportedInstruction 0x8AB8 ∧
    decode 0x8ABF = .unsupportedInstruction 0x8ABF := by decide

/-- V-DE13, V-DE17, V-DE19, V-DE20, V-DE21. -/
theorem test_more_illegal_words_refused :
    decode 0x9AB1 = .unsupportedInstruction 0x9AB1 ∧ decode 0xE1A2 = .unsupportedInstruction 0xE1A2 ∧
    decode 0xF129 = .unsupportedInstruction 0xF129 ∧ decode 0xF133 = .unsupportedInstruction 0xF133 ∧
    decode 0xFFFF = .unsupportedInstruction 0xFFFF := by decide

theorem test_decode_bytes_big_endian :
    decodeBytes [0x1A, 0xBC, 0x00] = .instr (.jp 0xABC) [0x00] ∧ decodeBytes [0x1A] = .tooFewBytes := by decide

theorem test_decode_table_word :
    decodeTableWord 16 0x5120 = some (.seReg 0x1 0x2) ∧ decodeTableWord 16 0x5121 = none := by decide

/-! ## The generic decoder -/

/-- V-DE23: positions of one letter need not be adjacent. -/
theorem test_fields_concatenate_left_to_right :
    (readPattern ['N', 'X', 'N', 'X']).map (fun p => (p.matchesWord 0x1234, p.field 0x1234 'N', p.field 0x1234 'X')) =
      some (true, 0x13, 0x24) := by decide

/-- V-DE24. -/
theorem test_absent_letter_is_zero :
    (readPattern ['1', 'N', 'N', 'N']).map (fun p => p.field 0x1234 'X') = some 0 := by decide

/-- V-DE25. -/
theorem test_literal_must_agree :
    (readPattern ['8', 'X', 'Y', '4']).map (fun p => p.matchesWord 0x8125) = some false := by decide

/-- V-DE26. -/
theorem test_first_row_wins :
    ((buildTable [(['1', 'N', 'N', 'N'], 1), (['1', '2', '3', '4'], 2)]).bind fun t => decodeTable t 0x1234).map
      (fun r => (r.1, r.2 'N')) = some (1, 0x234) := by decide

/-- V-DE28. -/
theorem test_lower_case_hex_is_literal :
    (readPattern ['a', 'b', 'c', 'd']).map (fun p => (p.matchesWord 0xABCD, p.matchesWord 0xABCE, p.field 0xABCD 'a')) =
      some (true, false, 0) := by decide

/-! ## The cycle and the fetch -/

/-- S1. -/
theorem test_one_cycle_loads_a_register :
    after (fun t => (t.readReg 0, t.pc, t.fault)) (step (start 0x6005)) = some (0x05, 0x0202, none) := by decide

/-- S4. -/
theorem test_unlisted_word_faults :
    after (fun t => (t.fault, t.pc)) (step (start 0x00FF)) =
      some (mark .unsupportedInstruction (some 0x00FF) 0x0200, 0x0202) := by decide

/-- V-CY1. -/
theorem test_last_word_of_memory_is_fetched :
    after (fun t => (t.pc, t.fault)) (step (withMem [(0xFFE, 0x12), (0xFFF, 0x00)] { State.reset with pc := 0x0FFE })) =
      some (0x0200, none) := by decide

/-- V-CY2. -/
theorem test_fetch_at_last_byte_faults :
    after (fun t => (t.fault, t.pc)) (step { State.reset with pc := 0x0FFF }) =
      some (mark .outOfBoundsAccess none 0x0FFF, 0x0FFF) := by decide

/-- V-CY4. -/
theorem test_pc_wraps :
    after (fun t => (t.readReg 0, t.pc))
      (step (withMem [(0xFFFE, 0x60), (0xFFFF, 0x07)] (large { State.reset with pc := 0xFFFE }))) =
      some (0x07, 0x0000) := by decide

/-- V-CY5: the word does not wrap to M[0]. -/
theorem test_fetch_does_not_wrap :
    after (fun t => t.fault) (step (large { State.reset with pc := 0xFFFF })) =
      some (mark .outOfBoundsAccess none 0xFFFF) := by decide

/-- V-CY6. -/
theorem test_odd_pc_is_legal :
    after (fun t => (t.readReg 0, t.pc))
      (step (withMem [(0x201, 0x60), (0x202, 0x07)] { State.reset with pc := 0x0201 })) = some (0x07, 0x0203) := by decide

/-- The placed word is run even where PC stands past the end of memory. -/
theorem test_fetch_word_placed_from_any_pc :
    after (fun t => (t.readReg 0, t.fault)) (step (State.withFetchWord { State.reset with pc := 0x0FFF } 16 0x6005)) =
      some (0x05, none) := by decide

/-! ## Video -/

/-- V-VI1. -/
theorem test_cls : after (fun t => (t.events, t.pc)) (step (start 0x00E0)) = some ([.clear], 0x0202) := by decide

/-- The start of V-VI2. -/
def spriteState : State :=
  withMem [(0x300, 0xF0), (0x301, 0x90), (0x302, 0x90), (0x303, 0x90), (0x304, 0xF0)]
    (withRegs [(0x1, 0x3C), (0x2, 0x10)] ((start 0xD125).setIndex 0x0300))

/-- V-VI2: the request; the flag for each of the two replies is V-VI4's test. -/
theorem test_drw_request :
    after (fun t => t.events) (step spriteState) = some [.draw 0x3C 0x10 [0xF0, 0x90, 0x90, 0x90, 0xF0]] := by decide

/-- V-VI4: VF is read as both coordinates before it is written; with the other reply VF is 1. -/
theorem test_drw_reads_vf_before_writing_it :
    ((withRegs [(0xF, 0x05)] running).drawWith 0xF 0xF [0x80] false).events = [.draw 0x05 0x05 [0x80]] ∧
    ((withRegs [(0xF, 0x05)] running).drawWith 0xF 0xF [0x80] false).readReg 0xF = 0x00 ∧
    ((withRegs [(0xF, 0x05)] running).drawWith 0xF 0xF [0x80] true).readReg 0xF = 0x01 := by decide

/-! ## Control transfer -/

/-- V-CF8. -/
theorem test_ret_pops :
    after (fun t => (t.pc, t.stack)) (step { start 0x00EE with stack := [0x0111, 0x0ABC] }) =
      some (0x0ABC, [0x0111]) := by decide

/-- V-CF9. -/
theorem test_ret_underflow :
    after (fun t => (t.fault, t.pc)) (step (start 0x00EE)) =
      some (mark .stackUnderflow (some 0x00EE) 0x0200, 0x0202) := by decide

/-- V-CF1. -/
theorem test_jp : after (fun t => (t.pc, t.stack)) (step (start 0x1ABC)) = some (0x0ABC, []) := by decide

/-- V-CF4: the pushed address wraps. -/
theorem test_call_pushes_wrapped_address :
    after (fun t => (t.stack, t.pc))
      (step (withMem [(0xFFFE, 0x23), (0xFFFF, 0x00)] (large { State.reset with pc := 0xFFFE }))) =
      some ([0x0000], 0x0300) := by decide

/-- V-CF5. -/
theorem test_call_overflow :
    after (fun t => (t.fault, t.stack, t.pc)) (step (limited 2 { start 0x2300 with stack := [0x0204, 0x0304] })) =
      some (mark .stackOverflow (some 0x2300) 0x0200, [0x0204, 0x0304], 0x0202) := by decide

/-- V-CF11. -/
theorem test_jp_v0_largest_target :
    after (fun t => t.pc) (step (withRegs [(0x0, 0xFF)] (start 0xBFFF))) = some 0x10FE := by decide

/-! ## Skips -/

/-- V-SK1, V-SK2. -/
theorem test_se_imm :
    after (fun t => t.pc) (step (withRegs [(0xA, 0x5F)] (start 0x3A5F))) = some 0x0204 ∧
    after (fun t => t.pc) (step (withRegs [(0xA, 0x5E)] (start 0x3A5F))) = some 0x0202 := by decide

/-- V-SK18. -/
theorem test_skip_wraps :
    after (fun t => t.pc)
      (step (withMem [(0xFFFC, 0x30), (0xFFFD, 0x00)] (large { State.reset with pc := 0xFFFC }))) = some 0x0000 := by
  decide

/-- V-SK3, V-SK4. -/
theorem test_sne_imm :
    after (fun t => t.pc) (step (withRegs [(0xA, 0x5F)] (start 0x4A5F))) = some 0x0202 ∧
    after (fun t => t.pc) (step (start 0x4A5F)) = some 0x0204 := by decide

/-- V-SK5, V-SK6. -/
theorem test_se_reg :
    after (fun t => t.pc) (step (withRegs [(0xA, 0x33), (0xB, 0x33)] (start 0x5AB0))) = some 0x0204 ∧
    after (fun t => t.pc) (step (withRegs [(0xA, 0x33), (0xB, 0x34)] (start 0x5AB0))) = some 0x0202 := by decide

/-- V-SK7, V-SK8. -/
theorem test_sne_reg :
    after (fun t => t.pc) (step (withRegs [(0xA, 0x33), (0xB, 0x33)] (start 0x9AB0))) = some 0x0202 ∧
    after (fun t => t.pc) (step (withRegs [(0xA, 0x33), (0xB, 0x34)] (start 0x9AB0))) = some 0x0204 := by decide

/-- V-SK11, V-SK12: a skip for the reply `true`, none for `false`, and one request either way. -/
theorem test_skp :
    ((withRegs [(0x5, 0x07)] running).keySkip (.skp 0x5) 0x5 true).pc = 0x0204 ∧
    ((withRegs [(0x5, 0x07)] running).keySkip (.skp 0x5) 0x5 false).pc = 0x0202 ∧
    ((withRegs [(0x5, 0x07)] running).keySkip (.skp 0x5) 0x5 true).events = [.keydown 0x07] := by decide

/-- V-SK15. -/
theorem test_skp_key_out_of_range :
    after (fun t => (t.fault, t.pc, t.events)) (step (withRegs [(0x5, 0x10)] (start 0xE59E))) =
      some (mark .keyIndexOutOfRange (some 0xE59E) 0x0200, 0x0202, []) := by decide

/-- The request of V-SK13. -/
theorem test_sknp_request :
    after (fun t => t.events) (step (withRegs [(0x5, 0x0F)] (start 0xE5A1))) = some [.keydown 0x0F] := by decide

/-- V-SK16. -/
theorem test_sknp_key_out_of_range :
    after (fun t => t.fault) (step (withRegs [(0x5, 0xFF)] (start 0xE5A1))) =
      some (mark .keyIndexOutOfRange (some 0xE5A1) 0x0200) := by decide

/-! ## Arithmetic and logic -/

/-- VX and VF after one step. -/
def result (x : Reg) (o : Host.Outcome State Fault Refusal) : Option (Byte × Byte) :=
  after (fun t => (t.readReg x, t.readReg 0xF)) o

/-- V-AL1. -/
theorem test_ld_imm : after (fun t => t.readReg 0xF) (step (start 0x6FAB)) = some 0xAB := by decide

/-- S2 in its stronger form. -/
theorem test_add_imm_wraps_without_flag :
    result 0x0 (step (withRegs [(0x0, 0xFF), (0xF, 0x5A)] (start 0x7001))) = some (0x00, 0x5A) := by decide

/-- V-AL4. -/
theorem test_ld_reg :
    result 0x1 (step (withRegs [(0x1, 0x11), (0x2, 0x22), (0xF, 0x77)] (start 0x8120))) = some (0x22, 0x77) := by decide

/-- V-AL5. -/
theorem test_or_reg :
    result 0x1 (step (withRegs [(0x1, 0xF0), (0x2, 0x0F), (0xF, 0x77)] (start 0x8121))) = some (0xFF, 0x77) := by decide

/-- V-AL6. -/
theorem test_and_reg : result 0x1 (step (withRegs [(0x1, 0xF0), (0x2, 0x3C)] (start 0x8122))) = some (0x30, 0x00) := by
  decide

/-- V-AL9. -/
theorem test_xor_reg_into_vf :
    result 0xF (step (withRegs [(0x1, 0xFF), (0xF, 0x0F)] (start 0x8F13))) = some (0xF0, 0xF0) := by decide

/-- V-AL11. -/
theorem test_add_reg_carry : result 0x1 (step (withRegs [(0x1, 0xFF), (0x2, 0x01)] (start 0x8124))) = some (0x00, 0x01) := by
  decide

/-- V-AL17: VF is read before the flag is written. -/
theorem test_add_reg_reads_vf_first :
    result 0x1 (step (withRegs [(0x1, 0x01), (0xF, 0xFF)] (start 0x81F4))) = some (0x00, 0x01) := by decide

/-- V-AL19. -/
theorem test_sub_reg_borrow : result 0x1 (step (withRegs [(0x1, 0x03), (0x2, 0x05)] (start 0x8125))) = some (0xFE, 0x00) := by
  decide

/-- V-AL23: with X = F the flag remains. -/
theorem test_sub_reg_into_vf :
    result 0xF (step (withRegs [(0x1, 0x03), (0xF, 0x05)] (start 0x8F15))) = some (0x01, 0x01) := by decide

/-- V-AL24: the old V1 is not read. -/
theorem test_shr_reg : result 0x1 (step (withRegs [(0x1, 0x77), (0x2, 0x03)] (start 0x8126))) = some (0x01, 0x01) := by
  decide

/-- V-AL31. -/
theorem test_subn_reg : result 0x1 (step (withRegs [(0x1, 0x03), (0x2, 0x05)] (start 0x8127))) = some (0x02, 0x01) := by
  decide

/-- V-AL32. -/
theorem test_subn_reg_borrow : result 0x1 (step (withRegs [(0x1, 0x05), (0x2, 0x03)] (start 0x8127))) = some (0xFE, 0x00) := by
  decide

/-- V-AL36. -/
theorem test_shl_reg : result 0x1 (step (withRegs [(0x2, 0xFF)] (start 0x812E))) = some (0xFE, 0x01) := by decide

/-- V-AL38. -/
theorem test_shl_reg_into_vf : result 0xF (step (withRegs [(0x1, 0x40)] (start 0x8F1E))) = some (0x00, 0x00) := by decide

/-- V-AL40. -/
theorem test_rnd_masks_reply : (running.randomWith 0x0 0x0F 0xA7).readReg 0x0 = 0x07 := by decide

/-- The request of V-AL41. -/
theorem test_rnd_request : after (fun t => t.events) (step (start 0xC000)) = some [.byte] := by decide

/-! ## Index and memory -/

/-- V-IM1. -/
theorem test_ld_index : after (fun t => t.index) (step (start 0xABCD)) = some 0x0BCD := by decide

/-- V-IM3, with VF of V-IM2. -/
theorem test_add_index_wraps :
    after (fun t => (t.index, t.readReg 0xF))
      (step (withRegs [(0x0, 0x01), (0xF, 0x55)] ((start 0xF01E).setIndex 0xFFFF))) = some (0x0000, 0x55) := by decide

/-- V-IM5. -/
theorem test_store_regs :
    after (fun t => (Memory.readList t.mem 0x300 4, t.index))
      (step (withMem [(0x303, 0x44)] (withRegs [(0x0, 0x11), (0x1, 0x22), (0x2, 0x33), (0x3, 0x99)]
        ((start 0xF255).setIndex 0x0300)))) = some ([0x11, 0x22, 0x33, 0x44], 0x0300) := by decide

/-- V-IM8. -/
theorem test_store_regs_all_or_nothing :
    after (fun t => (t.fault, Memory.read t.mem 0xFFF)) (step (withRegs [(0x0, 0x9A)] ((start 0xF155).setIndex 0x0FFF))) =
      some (mark .outOfBoundsAccess (some 0xF155) 0x0FFF, 0x00) := by decide

/-- V-IM9. -/
theorem test_load_regs :
    after (fun t => (t.readReg 0x0, t.readReg 0x1, t.readReg 0x2, t.readReg 0x3, t.index))
      (step (withMem [(0x300, 0xAA), (0x301, 0xBB), (0x302, 0xCC), (0x303, 0xDD)] (withRegs [(0x3, 0x44)]
        ((start 0xF265).setIndex 0x0300)))) = some (0xAA, 0xBB, 0xCC, 0x44, 0x0300) := by decide

/-- V-IM11. -/
theorem test_load_regs_out_of_bounds :
    after (fun t => (t.fault, t.readReg 0x0)) (step (withRegs [(0x0, 0x12)] ((start 0xF365).setIndex 0x0FFE))) =
      some (mark .outOfBoundsAccess (some 0xF365) 0x0FFE, 0x12) := by decide

/-! ## Timers and the key wait -/

/-- V-TI1. -/
theorem test_ld_from_delay :
    after (fun t => t.readReg 0x3) (step ((start 0xF307).setDelay 0x2A)) = some 0x2A := by decide

/-- V-TI2. -/
theorem test_ld_delay : after (fun t => t.delay) (step (withRegs [(0x3, 0x3C)] (start 0xF315))) = some 0x3C := by decide

/-- V-TI3. -/
theorem test_ld_sound :
    after (fun t => (t.sound, t.events)) (step (withRegs [(0x3, 0x05)] (start 0xF318))) = some (0x05, []) := by decide

/-- V-TI5, V-TI6, V-TI7: a key, a cancellation, and a byte above 15. -/
theorem test_wait_key_replies :
    (running.answerKey 0x5 (some 0x07)).readReg 0x5 = 0x07 ∧
    ((withRegs [(0x5, 0x99)] running).answerKey 0x5 none).readReg 0x5 = 0x99 ∧
    (running.answerKey 0x5 none).halt = true ∧ (running.answerKey 0x5 (some 0xC8)).readReg 0x5 = 0xC8 := by decide

/-- V-TI8: a port that never answers leaves the cycle unfinished. -/
theorem test_wait_key_unanswered :
    after (fun t => (t.pending, t.events, after (fun u => decide (u = t)) (step t)))
      (step { start 0xF50A with wait := none }) = some (some (.key 0x5), [.key], some true) := by decide

/-! ## Frames -/

/-- V-FR2: the start of the frame. -/
theorem test_frame_start :
    after (fun t => (t.delay, t.sound, t.events, t.frame))
      (step { start 0x1200 with delay := 1, sound := 1, calls := [.frame 1] }) =
      some (0x00, 0x00, [.buzz true], some ⟨1, false⟩) := by decide

/-- V-FR5. -/
theorem test_frame_start_counts_once :
    after (fun t => (t.delay, t.sound)) (step { State.reset with delay := 0xFF, sound := 0xFF, calls := [.frame 0] }) =
      some (0xFE, 0xFE) := by decide

/-- V-FR1: the end of the frame. -/
theorem test_frame_end_requests :
    after (fun t => (t.events, t.frame, t.pc)) (step { State.reset with frame := some ⟨0, false⟩ }) =
      some ([.present, .pump], none, 0x0200) := by decide

/-- V-FR6 and V-FR1: what the frame returns for each answer of the pump. -/
theorem test_frame_returns_quit :
    (State.answerPump { State.reset with frame := some ⟨0, false⟩ } true).stop = some true ∧
    (State.answerPump { State.reset with frame := some ⟨0, false⟩ } false).stop = some false ∧
    (State.answerPump { State.reset with frame := some ⟨0, true⟩ } false).stop = some true := by decide

/-- V-FR7: under `stop_now` the frame ends, without present or pump. -/
theorem test_halt_stops_frame_now :
    (State.settleFrame { running with halt := true, frame := some ⟨1, false⟩ }).stop = some true ∧
    (State.settleFrame { running with halt := true, frame := some ⟨1, false⟩ }).frame = none ∧
    (State.settleFrame { running with halt := true, frame := some ⟨1, false⟩ }).events = [] := by decide

/-- V-FR8: under `finish_batch` the batch goes on. -/
theorem test_halt_finishes_batch :
    (State.settleFrame { running with
      halt := true, frame := some ⟨1, false⟩, params := { Params.default with haltPolicy := .finishBatch } }).frame =
      some ⟨1, true⟩ := by decide

/-- V-FR9. -/
theorem test_fault_ends_frame :
    after (fun t => (t.fault, t.frame, t.events)) (step { start 0x00EE with frame := some ⟨3, false⟩ }) =
      some (mark .stackUnderflow (some 0x00EE) 0x0200, none, []) := by decide

/-- V-FR10. -/
theorem test_frame_on_faulted_block_refused :
    step { State.reset with fault := mark .stackUnderflow (some 0x00EE) 0x0200, calls := [.frame 1] } =
      .refused .frameOnFaultedBlock := rfl

/-! ## Reset and load -/

/-- V-RL2. -/
theorem test_load_at_end_of_memory :
    after (fun t => (t.mem, t.fault)) (step { State.reset with calls := [.load 0x0FFE [0x01, 0x02]] }) =
      some ([(0xFFE, 0x01), (0xFFF, 0x02)], none) := by decide

/-- V-RL3. -/
theorem test_load_out_of_bounds :
    after (fun t => (t.mem, t.fault)) (step { State.reset with calls := [.load 0x0FFF [0x01, 0x02]] }) =
      some ([], mark .outOfBoundsAccess none 0x0FFF) := by decide

/-- V-RL5. -/
theorem test_reset_rebuilds :
    after (fun t => decide (t = State.reset)) (step { withRegs [(0x1, 0x11)] (start 0x00EE) with
      fault := mark .stackUnderflow (some 0x00EE) 0x0200, index := 0x0300, calls := [.reset] }) = some true := by
  decide

/-- V-RL6, without the frame: the word at 0x0200 is 0x0000. -/
theorem test_empty_memory_faults :
    after (fun t => t.fault) (step State.reset) = some (mark .unsupportedInstruction (some 0x0000) 0x0200) := by decide

/-! ## Witnesses: for each statement with hypotheses, values that meet them, clause by clause -/

theorem witness_drw :
    (0xD12F : Word) &&& 0xF000 = 0xD000 ∧
    (running.setIndex 0x0FFE).dataAddr + (2 : Nibble).toNat ≤ running.params.memSize.bytes ∧
    (running.setIndex 0x1000).dataAddr + (0 : Nibble).toNat ≤ running.params.memSize.bytes ∧
    (running.fault = none ∧ running.params.memSize.bytes < (running.setIndex 0x0FFE).dataAddr + (3 : Nibble).toNat) := by
  decide

theorem witness_ret :
    State.stack { running with stack := [0x0111, 0x0ABC] } = [0x0111] ++ [0x0ABC] ∧
    running.stack = [] ∧ running.fault = none ∧ running.pc = (0x0200 : Word) + 2 := by decide

theorem witness_jp : (0x1FFF : Word) &&& 0xF000 = 0x1000 ∧ running.params.memSize = .classic := by decide

/-- The state 1FFF or BFFF leaves is ready for its next cycle. -/
theorem witness_jp_target_ready :
    (∃ t, exec (.jp 0xFFF) running = .next t ∧ t.Ready) ∧ ∃ t, exec (.jpV0 0xFFF) running = .next t ∧ t.Ready :=
  ⟨⟨_, rfl, rfl, rfl, rfl⟩, ⟨_, rfl, rfl, rfl, rfl⟩⟩

theorem witness_jp_to_itself :
    (start 0x1200).Ready ∧ (start 0x1200).frame = none ∧ (start 0x1200).pc.toNat = (0x200 : Addr12).toNat ∧
    (start 0x1200).fetch = some (encode (.jp 0x200)) := ⟨⟨rfl, rfl, rfl⟩, by decide⟩

theorem witness_call :
    (0x2300 : Word) &&& 0xF000 = 0x2000 ∧ running.params.stackLimit ≠ some running.stack.length ∧
    (limited 2 { running with stack := [0x0204] }).params.stackLimit ≠ some [(0x0204 : Word)].length ∧
    ((limited 2 { running with stack := [0x0204, 0x0304] }).params.stackLimit = some [(0x0204 : Word), 0x0304].length ∧
      running.fault = none ∧ running.pc = (0x0200 : Word) + 2) := by decide

theorem witness_jp_v0 :
    (0xBFFF : Word) &&& 0xF000 = 0xB000 ∧
    (running.params.memSize = .classic ∧ 0x0FFF ≤ (running.readReg 0x0).toNat + (0xFFF : Addr12).toNat) ∧
    (large running).params.memSize = .later := by decide

theorem witness_nested_calls :
    running.params.stackLimit = none ∧ running.fault = none ∧ [(0x210 : Addr12), 0x220] ≠ [] ∧ running.stack = [] := by
  decide

theorem witness_skips_decode :
    (0x3A5F : Word) &&& 0xF000 = 0x3000 ∧ (0x4A5F : Word) &&& 0xF000 = 0x4000 ∧
    (0x5AB0 : Word) &&& 0xF00F = 0x5000 ∧ ((0x5AB1 : Word) &&& 0xF000 = 0x5000 ∧ nib3 0x5AB1 ≠ 0) ∧
    (0x9AB0 : Word) &&& 0xF00F = 0x9000 ∧ ((0x9ABF : Word) &&& 0xF000 = 0x9000 ∧ nib3 0x9ABF ≠ 0) := by decide

theorem witness_key_skips :
    (0xE19E : Word) &&& 0xF0FF = 0xE09E ∧ (0xE1A1 : Word) &&& 0xF0FF = 0xE0A1 ∧
    ((withRegs [(0x5, 0x0F)] running).readReg 0x5).toNat ≤ 15 ∧
    (15 < ((withRegs [(0x5, 0x10)] running).readReg 0x5).toNat ∧ running.fault = none ∧
      running.pc = (0x0200 : Word) + 2) := by decide

theorem witness_alu_decode :
    (0x6FAB : Word) &&& 0xF000 = 0x6000 ∧ (0x7F01 : Word) &&& 0xF000 = 0x7000 ∧
    (0x8AB0 : Word) &&& 0xF00F = 0x8000 ∧ (0x8AB1 : Word) &&& 0xF00F = 0x8001 ∧
    (0x8AB2 : Word) &&& 0xF00F = 0x8002 ∧ (0x8AB3 : Word) &&& 0xF00F = 0x8003 ∧
    (0x8AB4 : Word) &&& 0xF00F = 0x8004 ∧ (0x8AB5 : Word) &&& 0xF00F = 0x8005 ∧
    (0x8AB6 : Word) &&& 0xF00F = 0x8006 ∧ (0x8AB7 : Word) &&& 0xF00F = 0x8007 ∧
    (0x8ABE : Word) &&& 0xF00F = 0x800E ∧ (0xC0FF : Word) &&& 0xF000 = 0xC000 := by decide

/-- The hypothesis `x ≠ 0xF` of the arithmetic instructions' results. -/
theorem witness_destination_not_vf : (0x0 : Reg) ≠ 0xF ∧ (0xE : Reg) ≠ 0xF := by decide

theorem witness_index_decode :
    (0xABCD : Word) &&& 0xF000 = 0xA000 ∧ (0xF31E : Word) &&& 0xF0FF = 0xF01E ∧
    (0xF255 : Word) &&& 0xF0FF = 0xF055 ∧ (0xFF65 : Word) &&& 0xF0FF = 0xF065 := by decide

/-- FX55 and FX65, at the last byte and one past it. -/
theorem witness_block_copy :
    Memory.wf (running.setIndex 0x0FFF).mem ∧
    (running.setIndex 0x0FFF).dataAddr + ((0x0 : Reg).toNat + 1) ≤ running.params.memSize.bytes ∧
    (running.setIndex 0x0FF0).dataAddr + ((0xF : Reg).toNat + 1) ≤ running.params.memSize.bytes ∧
    (running.fault = none ∧
      running.params.memSize.bytes < (running.setIndex 0x0FFF).dataAddr + ((0x1 : Reg).toNat + 1)) := by decide

theorem witness_timers_decode :
    (0xF307 : Word) &&& 0xF0FF = 0xF007 ∧ (0xF315 : Word) &&& 0xF0FF = 0xF015 ∧
    (0xF318 : Word) &&& 0xF0FF = 0xF018 ∧ (0xF10A : Word) &&& 0xF0FF = 0xF00A := by decide

theorem witness_wait_key_answered : running.wait = some 0 := by decide

/-- The block while FX0A's request is held, for ever or for three more steps. -/
def holding (w : Option Nat) : State := { running with pending := some (.key 0x5), wait := w }

theorem witness_wait_key_holds :
    State.wait { running with wait := some 1 } ≠ some 0 ∧
    ((holding none).fault = none ∧ (holding none).pending = some (.key 0x5) ∧ (holding none).wait ≠ some 0) ∧
    ((holding (some 3)).pending = some (.key 0x5) ∧ (holding (some 3)).wait = some (2 + 1)) ∧
    ((holding (some 0)).fault = none ∧ (holding (some 0)).pending = some (.key 0x5) ∧
      (holding (some 0)).wait = some 0 ∧ ((holding (some 0)).frame = none ∨ (holding (some 0)).halt = false)) := by decide

/-- The same request held inside a frame, where the answer settles the frame. -/
theorem witness_wait_key_held_in_frame :
    State.pending { holding (some 0) with frame := some ⟨2, false⟩ } = some (.key 0x5) ∧
    State.frame { holding (some 0) with frame := some ⟨2, false⟩ } ≠ none ∧ (holding (some 0)).halt = false := by decide

theorem witness_decoded_word : decode 0x8AB6 = .instr (.shrReg 0xA 0xB) := by decide

/-- A table of two rows whose second is the first to match 0x8124. -/
def twoRows : List (Pattern × Nat) :=
  [(⟨.lit 1, .mask 'N', .mask 'N', .mask 'N'⟩, 1), (⟨.lit 8, .mask 'X', .mask 'Y', .lit 4⟩, 2)]

theorem witness_first_match :
    ((∀ row ∈ twoRows.take 1, row.1.matchesWord 0x8124 = false) ∧
      (⟨.lit 8, .mask 'X', .mask 'Y', .lit 4⟩ : Pattern).matchesWord 0x8124 = true) ∧
    (∀ row ∈ twoRows, row.1.matchesWord 0x8125 = false) := by decide

theorem witness_no_row_matches : ∀ row ∈ opcodeTable, row.1.matchesWord 0x00FF = false := by decide

/-- R80: both bounds of each range of digits, either case, and the characters beside them. -/
theorem test_hex_digit_ranges :
    hexVal '0' = some 0x0 ∧ hexVal '9' = some 0x9 ∧ hexVal 'A' = some 0xA ∧ hexVal 'F' = some 0xF ∧
    hexVal 'a' = some 0xA ∧ hexVal 'f' = some 0xF ∧
    ['/', ':', '@', 'G', '`', 'g'].map hexVal = [none, none, none, none, none, none] := by decide

theorem witness_literal_and_absent_letter :
    hexVal '9' = some 0x9 ∧ hexVal 'F' = some 0xF ∧ hexVal 'a' = some 0xA ∧ hexVal 'N' = none ∧
    'X' ∉ ['1', 'N', 'N', 'N'] := by decide

theorem witness_step_runs :
    ((start 0x6005).Ready ∧ (start 0x6005).fetch = some 0x6005 ∧ decode 0x6005 = .instr (.ldImm 0x0 0x05)) ∧
    (State.Ready { State.reset with pc := 0x0FFF } ∧ State.fetch { State.reset with pc := 0x0FFF } = none) ∧
    ((start 0x00FF).Ready ∧ (start 0x00FF).fetch = some 0x00FF ∧ decode 0x00FF = .unsupportedInstruction 0x00FF) ∧
    State.Ready { start 0x6005 with frame := some ⟨1, false⟩, calls := [.reset] } :=
  ⟨⟨⟨rfl, rfl, rfl⟩, by decide⟩, ⟨⟨rfl, rfl, rfl⟩, by decide⟩, ⟨⟨rfl, rfl, rfl⟩, by decide⟩,
    ⟨rfl, rfl, by decide⟩⟩

theorem witness_halt_unchanged :
    (∀ x, Instr.cls ≠ .waitKey x) ∧ exec .cls running = .next (running.send .clear) := ⟨by simp, rfl⟩

/-- A faulted block with no call left, or with the calls `cs`. -/
def faulted (cs : List HostCall) : State :=
  { running with fault := mark .stackUnderflow (some 0x00EE) 0x0200, calls := cs }

theorem witness_faulted_block :
    ((faulted []).fault = mark .stackUnderflow (some 0x00EE) 0x0200 ∧ (faulted []).calls = []) ∧
    (faulted [.frame 3]).calls = .frame 3 :: [] ∧
    ((faulted [.reset]).fault ≠ none ∧ (faulted [.reset]).calls = .reset :: []) ∧
    ((faulted [.load 0 [1]]).fault = mark .stackUnderflow (some 0x00EE) 0x0200 ∧
      ∀ cs, (faulted [.load 0 [1]]).calls ≠ .reset :: cs) ∧ running.fault = none :=
  ⟨by decide, by decide, by decide, ⟨by decide, by intro cs h; cases h⟩, by decide⟩

theorem witness_faulted_block_load : ∃ t, step (faulted [.load 0 [1]]) = .next t := ⟨_, rfl⟩

theorem witness_fetch_faults :
    (State.params { State.reset with pc := 0x0FFF }).memSize = .classic ∧
    (large { State.reset with pc := 0xFFFF }).params.memSize = .later ∧
    State.Ready { State.reset with pc := 0x0FFF } ∧ State.frame { State.reset with pc := 0x0FFF } = none ∧
    State.fetch { State.reset with pc := 0x0FFF } = none :=
  ⟨rfl, rfl, ⟨rfl, rfl, rfl⟩, rfl, by decide⟩

theorem witness_illegal_word :
    (start 0x00FF).Ready ∧ (start 0x00FF).frame = none ∧ (start 0x00FF).fetch = some 0x00FF :=
  ⟨⟨rfl, rfl, rfl⟩, rfl, by decide⟩

theorem witness_mem_read :
    0x0FFF + 1 ≤ running.params.memSize.bytes ∧ running.params.memSize.bytes < 0x1000 + 1 ∧
    0x0FFE + 2 ≤ running.params.memSize.bytes ∧ running.params.memSize.bytes < 0x0FFF + 2 := by decide

theorem witness_mem_slice_write :
    Memory.wf [(0x200, (0x12 : Byte)), (0xFFF, 0x01)] ∧ 0x0FFE + [(0x01 : Byte), 0x02].length ≤ running.params.memSize.bytes ∧
    running.params.memSize.bytes < 0x0FFF + [(0x01 : Byte), 0x02].length ∧
    0x1000 + ([] : List Byte).length ≤ running.params.memSize.bytes := by decide

/-- Program P6 at its fourth cycle. -/
theorem witness_fetch_sees_stored_bytes :
    ∃ t, exec (.storeRegs 0x1) { running with index := 0x0202 } = .next t ∧
      Memory.wf running.mem ∧
      State.dataAddr { running with index := 0x0202 } + ((0x1 : Reg).toNat + 1) ≤ running.params.memSize.bytes ∧
      (0x0 : Reg).toNat + 1 ≤ (0x1 : Reg).toNat ∧
      running.pc.toNat = State.dataAddr { running with index := 0x0202 } + (0x0 : Reg).toNat := ⟨_, rfl, by decide⟩

theorem witness_precise_fault :
    ∃ t m, exec .ret running = .next t ∧ running.fault = none ∧ t.fault ≠ none ∧ t.fault = some m :=
  ⟨_, _, rfl, rfl, by decide, rfl⟩

theorem witness_invariant_kept :
    State.Inv { start 0x1200 with frame := some ⟨1, false⟩ } ∧
    ∃ t, step { start 0x1200 with frame := some ⟨1, false⟩ } = .next t :=
  ⟨{ memWf := by decide
     memBelow := by decide
     paramsOk := by decide
     stackBound := by intro k h; cases h
     faultIdle := fun h => absurd rfl h
     pumpAtEnd := by intro h; cases h
     keyOpen := by intro x h; cases h
     frameOpen := fun _ => rfl
     stopNow := by intro _ f h; cases h; rfl }, ⟨_, rfl⟩⟩

theorem witness_params : Params.wellFormed ⟨.later, some 16, .finishBatch⟩ = true := by decide

theorem witness_host_reset :
    State.pending { start 0x1200 with calls := [.reset] } = none ∧ (start 0x1200).frame = none ∧
    State.calls { start 0x1200 with calls := [.reset] } = .reset :: [] := by decide

theorem witness_special_state :
    (∃ t, exec (.ldIndex 0x300) running = .next t ∧ t.index ≠ running.index) ∧
    (∃ t, exec (.call 0x300) running = .next t ∧ t.stack ≠ running.stack) ∧
    (∃ t, exec (.ldDelay 0x1) (withRegs [(0x1, 0x05)] running) = .next t ∧ t.delay ≠ running.delay) ∧
    (∃ t, exec (.ldSound 0x1) (withRegs [(0x1, 0x05)] running) = .next t ∧ t.sound ≠ running.sound) ∧
    (∃ t, exec (.storeRegs 0x1) (withRegs [(0x1, 0x05)] running) = .next t ∧ t.mem ≠ running.mem) :=
  ⟨⟨_, rfl, by decide⟩, ⟨_, rfl, by decide⟩, ⟨_, rfl, by decide⟩, ⟨_, rfl, by decide⟩, ⟨_, rfl, by decide⟩⟩

theorem witness_hidden_state :
    (∀ nnn, Instr.cls ≠ .call nnn) ∧ Instr.cls ≠ .ret ∧ ∀ x, Instr.cls ≠ .ldSound x := by simp

theorem witness_flag_register :
    ∃ t, exec (.addReg 0x1 0x2) (withRegs [(0x1, 0xFF), (0x2, 0x01)] running) = .next t ∧
      t.readReg 0xF ≠ (withRegs [(0x1, 0xFF), (0x2, 0x01)] running).readReg 0xF := ⟨_, rfl, by decide⟩

theorem witness_memory_changes :
    (∃ t, step (withRegs [(0x0, 0x9A)] ((start 0xF055).setIndex 0x0300)) = .next t ∧ t.mem ≠ (start 0xF055).mem) ∧
    (∃ t, step { State.reset with calls := [.load 0x0FFE [0x01, 0x02]] } = .next t ∧ t.mem ≠ State.reset.mem) ∧
    (∃ t, step { start 0x1200 with calls := [.reset] } = .next t ∧ t.mem ≠ (start 0x1200).mem) :=
  ⟨⟨_, rfl, by decide⟩, ⟨_, rfl, by decide⟩, ⟨_, rfl, by decide⟩⟩

/-- A load beside a fault mark, and a reset with no other call running, are made by the next step. -/
theorem witness_makes :
    (faulted [.load 0 [1]]).Makes (.load 0 [1]) [] ∧ State.Makes { State.reset with calls := [.reset] } .reset [] :=
  ⟨⟨rfl, Or.inl (by decide)⟩, ⟨rfl, Or.inr ⟨rfl, rfl⟩⟩⟩

/-- A reset that waits behind a frame in progress is not made by the next step. -/
theorem test_waiting_call_is_not_made :
    ¬ State.Makes { start 0x1200 with frame := some ⟨2, false⟩, calls := [.reset] } .reset [] := by
  rintro ⟨_, h | ⟨_, h⟩⟩
  · exact h rfl
  · cases h

theorem witness_request_history : ∃ t, step (start 0x00E0) = .next t := ⟨_, rfl⟩

/-- A block with a delay count and the host's call of a frame, its sound timer at `v`. -/
def beforeFrame (v : Byte) : State := { State.reset with delay := 2, sound := v, calls := [.frame 3] }

theorem witness_frame_start :
    ((beforeFrame 1).fault = none ∧ (beforeFrame 1).pending = none ∧ (beforeFrame 1).frame = none ∧
      (beforeFrame 1).calls = .frame 3 :: [] ∧ (beforeFrame 1).sound.toNat ≠ 0) ∧
    (beforeFrame 0).sound.toNat = 0 := by decide

theorem witness_delay_changes :
    (∃ t, step (beforeFrame 0) = .next t ∧ t.delay ≠ (beforeFrame 0).delay) ∧
    (∃ t, step { State.reset with delay := 5, calls := [.reset] } = .next t ∧ t.delay ≠ 5) ∧
    (∃ t, step (withRegs [(0x3, 0x3C)] (start 0xF315)) = .next t ∧ t.delay ≠ (start 0xF315).delay) :=
  ⟨⟨_, rfl, by decide⟩, ⟨_, rfl, by decide⟩, ⟨_, rfl, by decide⟩⟩

theorem witness_frame_end :
    State.fault { State.reset with frame := some ⟨0, true⟩ } = none ∧
    State.pending { State.reset with frame := some ⟨0, true⟩ } = none ∧
    State.frame { State.reset with frame := some ⟨0, true⟩ } = some ⟨0, true⟩ ∧
    State.wait { State.reset with frame := some ⟨0, true⟩ } = some 0 := by decide

/-- The end of a batch while the port waits, and a pump answered after a wait. -/
theorem witness_pump_wait :
    (State.fault { State.reset with frame := some ⟨0, true⟩, wait := some 1 } = none ∧
      State.wait { State.reset with frame := some ⟨0, true⟩, wait := some 1 } ≠ some 0) ∧
    (State.fault { State.reset with frame := some ⟨0, true⟩, pending := some .pump } = none ∧
      State.pending { State.reset with frame := some ⟨0, true⟩, pending := some .pump } = some .pump ∧
      State.frame { State.reset with frame := some ⟨0, true⟩, pending := some .pump } = some ⟨0, true⟩ ∧
      State.wait { State.reset with frame := some ⟨0, true⟩, pending := some .pump } = some 0) := by decide

/-- A cycle of a batch that jumps, and one that faults. -/
theorem witness_frame_cycle :
    (State.Ready { start 0x1200 with frame := some ⟨2 + 1, false⟩ } ∧
      ∃ u, cycle (State.beginCycle { start 0x1200 with frame := some ⟨2 + 1, false⟩ }) = .next u ∧
        u.pending = none ∧ u.fault = none ∧ u.halt = false) ∧
    (State.Ready { start 0x00EE with frame := some ⟨0 + 1, false⟩ } ∧
      ∃ u, cycle (State.beginCycle { start 0x00EE with frame := some ⟨0 + 1, false⟩ }) = .next u ∧
        u.pending = none ∧ u.fault ≠ none) :=
  ⟨⟨⟨rfl, rfl, by decide⟩, ⟨_, rfl, by decide⟩⟩, ⟨⟨rfl, rfl, by decide⟩, ⟨_, rfl, by decide⟩⟩⟩

/-- `load`, in range to the last byte, and out of range by one. -/
theorem witness_host_load :
    (Memory.wf State.reset.mem ∧ State.reset.fault = none ∧ State.reset.pending = none ∧ State.reset.frame = none ∧
      State.calls { State.reset with calls := [.load 0x0FFE [0x01, 0x02]] } = .load 0x0FFE [0x01, 0x02] :: [] ∧
      0x0FFE + [(0x01 : Byte), 0x02].length ≤ State.reset.params.memSize.bytes) ∧
    State.reset.params.memSize.bytes < 0x0FFF + [(0x01 : Byte), 0x02].length := by decide

end Sys2Proof.Tests
end

section
/-! The pattern decoder over any table: the order of the search (R85) and the rejection of malformed tables (R84). -/

namespace Sys2Proof

/-! ## The search takes the first matching row (R85) -/

/-- Rows that do not match are passed over. -/
theorem decodeTable_append_of_no_match {H : Type} (before t : List (Pattern × H)) (w : Word)
    (hbefore : ∀ row ∈ before, row.1.matchesWord w = false) :
    decodeTable (before ++ t) w = decodeTable t w := by
  induction before with
  | nil => rfl
  | cons row rows ih =>
    obtain ⟨p, h⟩ := row
    obtain ⟨hp, hrows⟩ := List.forall_mem_cons.mp hbefore
    simp [decodeTable_cons, hp, ih hrows]

theorem decodeTable_eq_none_of_no_match {H : Type} (t : List (Pattern × H)) (w : Word)
    (ht : ∀ row ∈ t, row.1.matchesWord w = false) : decodeTable t w = none := by
  simpa [decodeTable] using decodeTable_append_of_no_match t [] w ht

theorem decodeTable_cons_of_match {H : Type} (p : Pattern) (h : H) (rows : List (Pattern × H)) (w : Word)
    (hp : p.matchesWord w = true) : decodeTable ((p, h) :: rows) w = some (h, p.field w) := by
  rw [decodeTable_cons, if_pos hp]

/-- R86: the block rejects a word its table has no row for, with the raw word. -/
theorem decode_of_decodeTable_eq_none (w : Word) (hw : decodeTable opcodeTable w = none) :
    decode w = .unsupportedInstruction w := by
  rw [decode, hw]

/-- Settles O33: the rows before the matching one are passed over, by induction on them. -/
theorem firstMatchWins : Obligations.FirstMatchWins := by
  refine ⟨fun H before after p h w hbefore hp => ?_, fun H => decodeTable_eq_none_of_no_match, fun w hw => ?_⟩
  · rw [decodeTable_append_of_no_match before _ w hbefore, decodeTable_cons_of_match p h after w hp]
  · exact decode_of_decodeTable_eq_none w (decodeTable_eq_none_of_no_match opcodeTable w hw)

/-! ## A malformed table is rejected (R84) -/

theorem readPattern_eq_none_iff (text : List Char) : readPattern text = none ↔ text.length ≠ 4 := by
  match text with
  | [] | [_] | [_, _] | [_, _, _] | [_, _, _, _] | _ :: _ :: _ :: _ :: _ :: _ => simp [readPattern]

/-- A table is rejected for its first row or for a later one. -/
theorem buildTable_cons_eq_none_iff {H : Type} (text : List Char) (h : H) (rows : List (List Char × H)) :
    buildTable ((text, h) :: rows) = none ↔ readPattern text = none ∨ buildTable rows = none := by
  rw [buildTable]
  cases readPattern text <;> cases buildTable rows <;> simp

theorem buildTable_eq_none_iff {H : Type} (t : List (List Char × H)) :
    buildTable t = none ↔ ∃ row ∈ t, row.1.length ≠ 4 := by
  induction t with
  | nil => simp [buildTable]
  | cons row rows ih =>
    obtain ⟨text, h⟩ := row
    simp [buildTable_cons_eq_none_iff, readPattern_eq_none_iff, ih]

theorem tableTextOk_iff {H : Type} (t : List (List Char × H)) :
    tableTextOk t = true ↔ ∀ row ∈ t, row.1.length = 4 := by
  simp [tableTextOk, patternTextOk]

/-- Settles O35, by induction on the rows of the table; the block's own rows are well formed. -/
theorem malformedTablesAreRejected : Obligations.MalformedTablesAreRejected :=
  ⟨fun _ => buildTable_eq_none_iff, (tableTextOk_iff opcodeRows).mp opcodeRows_ok, buildTable_opcodeRows⟩

end Sys2Proof
end

section
/-! The video instruction 00E0 (40_video.md): a request sent on a port adds to the history and touches nothing else. -/

namespace Sys2Proof

open Sys2Proof.Machine

/-- The frame of a request whose reply, if any, is not yet taken (R257). -/
theorem send_unchangedBut_events (s : State) (e : Event) : UnchangedBut [] [.events] s (s.send e) := by
  refine ⟨fun r _ => State.readReg_congr (s.send_regs e) r, fun p hp => ?_⟩
  cases p
  case events => exact absurd List.mem_cons_self hp
  all_goals simp [Part.same]

/-- R110: CLS is the sending of one `clear` request. -/
theorem exec_cls (s : State) : exec .cls s = .next (s.send .clear) := rfl

/-- Settles O1: CLS sends one request, and a request sent changes the history alone. -/
theorem clsSendsOneClearRequest : Obligations.ClsSendsOneClearRequest :=
  ⟨(decode_eq_instr_iff 0x00E0 .cls).mpr rfl,
    fun s => ⟨s.send .clear, exec_cls s, s.send_events .clear, send_unchangedBut_events s .clear⟩⟩

end Sys2Proof
end

section
/-! What one write of PC, of the call stack or of the fault mark leaves unchanged, and a step whose fetch fails. -/

namespace Sys2Proof

open Sys2Proof.Machine

/-! ## Frames -/

theorem setPc_unchangedBut_pc (s : State) (v : Word) : UnchangedBut [] [.pc] s (s.setPc v) := by
  refine ⟨fun r _ => State.readReg_congr (s.setPc_regs v) r, fun p hp => ?_⟩
  cases p
  case pc => exact absurd List.mem_cons_self hp
  all_goals simp [Part.same]

theorem setStack_setPc_unchangedBut (s : State) (l : List Word) (v : Word) :
    UnchangedBut [] [.pc, .stack] s ((s.setStack l).setPc v) := by
  refine ⟨fun r _ => State.readReg_congr (by simp) r, fun p hp => ?_⟩
  cases p
  case pc => exact absurd List.mem_cons_self hp
  case stack => exact absurd (List.mem_cons_of_mem _ List.mem_cons_self) hp
  all_goals simp [Part.same]

/-- A fault is precise: it sets its mark and nothing else (R245). -/
theorem raise_unchangedBut_fault (s : State) (c : Cause) (o : Option Word) (a : Nat) :
    UnchangedBut [] [.fault] s (s.raise c o a) := by
  refine ⟨fun r _ => State.readReg_congr (by simp) r, fun p hp => ?_⟩
  cases p
  case fault => exact absurd List.mem_cons_self hp
  all_goals simp [Part.same]

/-! ## The fetch of a step (R95, R96) -/

theorem fetch_eq_none_iff (s : State) : s.fetch = none ↔ s.params.memSize.bytes < s.pc.toNat + 2 := by
  rcases s.fetch_cases with ⟨hin, e⟩ | ⟨hout, e⟩ <;> rw [e]
  · exact iff_of_false (Option.some_ne_none _) (by omega)
  · exact iff_of_true rfl hout

theorem fetch_beginCycle (s : State) : s.beginCycle.fetch = s.fetch := rfl

/-- What a finished cycle does to its frame leaves the fault mark alone. -/
theorem settleFrame_fault (s : State) : s.settleFrame.fault = s.fault := by
  rcases s.settleFrame_cases with h | ⟨_, _, _, h⟩ | ⟨_, _, _, _, _, _, h⟩ | ⟨_, _, _, _, _, _, h⟩ <;> rw [h]

/-- R96: a ready block whose PC has no two bytes of memory at it takes `OutOfBoundsAccess` at PC. -/
theorem step_of_pc_out_of_range (t : State) (h : t.Ready) (hpc : t.params.memSize.bytes < t.pc.toNat + 2) :
    ∃ u, step t = .next u ∧ u.fault = some ⟨.outOfBoundsAccess, ⟨none, t.pc.toNat⟩⟩ := by
  have hnone : t.beginCycle.fetch = none := (fetch_eq_none_iff t).mpr hpc
  have hmark : t.beginCycle.fault = none := h.1
  refine ⟨(t.beginCycle.raise .outOfBoundsAccess none t.pc.toNat).settleFrame, ?_, ?_⟩
  · rw [step_of_ready t h]
    simp [frameCycle, cycle, hnone]
  · rw [settleFrame_fault, State.raise_fault_of_none _ hmark]

end Sys2Proof
end

section
/-! The return and the jumps 00EE, 1NNN and BNNN (41_control_flow.md). -/

namespace Sys2Proof

open Sys2Proof.Machine

/-! ## 00EE (R120) -/

theorem exec_ret_of_stack_append (s : State) (l : List Word) (v : Word) (h : s.stack = l ++ [v]) :
    exec .ret s = .next ((s.setStack l).setPc v) := by
  simp [exec, execRet, h]

theorem exec_ret_of_stack_nil (s : State) (h : s.stack = []) :
    exec .ret s = .next (s.raise .stackUnderflow (some 0x00EE) s.fetchAddr) := by
  simp [exec, execRet, h, State.raiseAtFetch, encode]

/-- The address a fault records is the one PC was advanced from (R24). -/
theorem fetchAddr_of_pc_eq (s : State) (a : Word) (h : s.pc = a + 2) : s.fetchAddr = a.toNat := by
  rw [State.fetchAddr, h, BitVec.add_sub_cancel]

/-- Settles O3: RET pops the end of a stack that has one, and faults on the empty stack. -/
theorem retPopsReturnAddressIntoPc : Obligations.RetPopsReturnAddressIntoPc := by
  refine ⟨(decode_eq_instr_iff 0x00EE .ret).mpr rfl, fun s l v h => ?_, fun s a hs hf hpc => ?_⟩
  · exact ⟨_, exec_ret_of_stack_append s l v h, rfl, rfl, setStack_setPc_unchangedBut s l v⟩
  · refine ⟨_, exec_ret_of_stack_nil s hs, ?_, raise_unchangedBut_fault s _ _ _⟩
    rw [State.raise_fault_of_none s hf, fetchAddr_of_pc_eq s a hpc]

/-! ## The address operand (R89) -/

theorem addrOperand_toNat (nnn : Addr12) : (addrOperand nnn).toNat = nnn.toNat :=
  BitVec.toNat_setWidth_of_le (by decide)

/-- The 12-bit field of a word of format F_addr is its address. -/
theorem formAddr_extract_addr (op : Nibble) (nnn : Addr12) : (formAddr op nnn).extractLsb' 0 12 = nnn := by
  apply BitVec.eq_of_toNat_eq
  rw [BitVec.extractLsb'_toNat, Nat.shiftRight_zero, formAddr_toNat]
  omega

/-! ## 1NNN (R121) -/

theorem decode_jp (w : Word) (h : w &&& 0xF000 = 0x1000) : decode w = .instr (.jp (w.extractLsb' 0 12)) := by
  have hop : nib0 w = 1 := (and_F000_iff w 1).mp h
  simp [decode_eq_instr_iff, directInstr, hop]

theorem decode_encode_jp (nnn : Addr12) : decode (encode (.jp nnn)) = .instr (.jp nnn) := by
  rw [decode_jp _ (Laws.RowBits.jp nnn), encode, formAddr_extract_addr]

theorem exec_jp (nnn : Addr12) (s : State) : exec (.jp nnn) s = .next (s.setPc (addrOperand nnn)) := rfl

/-- Outside a frame, one step of a jump to its own address clears the halt result and comes back to the same PC. -/
theorem step_of_jp_to_itself (s : State) (nnn : Addr12) (hr : s.Ready) (hframe : s.frame = none)
    (hpc : s.pc.toNat = nnn.toNat) (hfetch : s.fetch = some (encode (.jp nnn))) :
    step s = .next { s with halt := false } := by
  have htarget : addrOperand nnn = s.pc := BitVec.eq_of_toNat_eq (by rw [addrOperand_toNat, hpc])
  have hcycle : cycle s.beginCycle = .next (s.beginCycle.advance.setPc s.pc) := by
    simp [cycle, fetch_beginCycle, hfetch, dispatchWord, decode_encode_jp, exec_jp, htarget]
  rw [step_of_ready s hr, frameCycle, hcycle, mapNext_next]
  simp [State.settleFrame, State.beginCycle, State.advance, State.setPc, hframe]

/-- R121 (a): the loop, by induction on the number of steps. -/
theorem goodRun_of_jp_to_itself (nnn : Addr12) (k : Nat) (s : State) (hr : s.Ready) (hframe : s.frame = none)
    (hpc : s.pc.toNat = nnn.toNat) (hfetch : s.fetch = some (encode (.jp nnn))) : GoodRun s k := by
  induction k generalizing s with
  | zero => exact hr.1
  | succ k ih =>
    exact ⟨hr.1, _, step_of_jp_to_itself s nnn hr hframe hpc hfetch, ih { s with halt := false } hr hframe hpc hfetch⟩

/-- Settles O4: the jump writes PC alone, a jump to itself repeats one state, and 0xFFF leaves one byte to fetch. -/
theorem jpSetsPcToItsAddress : Obligations.JpSetsPcToItsAddress := by
  refine ⟨decode_jp, fun s nnn => ?_, fun s nnn hr hframe hpc hfetch k =>
    goodRun_of_jp_to_itself nnn k s hr hframe hpc hfetch⟩
  refine ⟨_, exec_jp nnn s, addrOperand_toNat nnn, setPc_unchangedBut_pc s _, fun hsize hnnn hready => ?_⟩
  subst hnnn
  exact step_of_pc_out_of_range _ hready (by simp [hsize, MemSize.bytes, addrOperand_toNat])

/-! ## BNNN (R123) -/

theorem decode_jpV0 (w : Word) (h : w &&& 0xF000 = 0xB000) :
    decode w = .instr (.jpV0 (w.extractLsb' 0 12)) := by
  have hop : nib0 w = 11 := (and_F000_iff w 11).mp h
  simp [decode_eq_instr_iff, directInstr, hop]

theorem exec_jpV0 (nnn : Addr12) (s : State) :
    exec (.jpV0 nnn) s = .next (s.setPc (s.readRegWide 0 + addrOperand nnn)) := rfl

theorem readRegWide_toNat (s : State) (r : Reg) : (s.readRegWide r).toNat = (s.readReg r).toNat :=
  BitVec.toNat_setWidth_of_le (by decide)

/-- A byte and a 12-bit address add up to at most 0x10FE, so the sum does not wrap. -/
theorem readRegWide_add_addrOperand_toNat (s : State) (r : Reg) (nnn : Addr12) :
    (s.readRegWide r + addrOperand nnn).toNat = (s.readReg r).toNat + nnn.toNat := by
  have := (s.readReg r).isLt
  have := nnn.isLt
  rw [BitVec.toNat_add, readRegWide_toNat, addrOperand_toNat]
  omega

/-- Settles O6: the target is the sum, which 4096 bytes may not reach and 65536 bytes always do. -/
theorem jpV0AddsV0ToItsAddress : Obligations.JpV0AddsV0ToItsAddress := by
  refine ⟨decode_jpV0, fun s nnn => ?_⟩
  have htarget := readRegWide_add_addrOperand_toNat s 0 nnn
  refine ⟨_, exec_jpV0 nnn s, htarget, setPc_unchangedBut_pc s _, fun hsize hfar hready => ?_, fun hsize => ?_⟩
  · rw [← htarget]
    refine step_of_pc_out_of_range _ hready ?_
    rw [State.setPc_pc, htarget, State.setPc_params, hsize, MemSize.bytes]
    omega
  · have := (s.readReg 0).isLt
    have := nnn.isLt
    rw [Ne, fetch_eq_none_iff, State.setPc_pc, htarget, State.setPc_params, hsize, MemSize.bytes]
    omega

end Sys2Proof
end

section
/-! The four register and immediate skips 3XNN, 4XNN, 5XY0 and 9XY0 (42_skips.md). -/

namespace Sys2Proof

open Sys2Proof.Machine

/-! ## The skip action (R140) -/

/-- Taken or not, a skip is a write of PC. -/
theorem skipIf_unchangedBut_pc (s : State) (c : Bool) : UnchangedBut [] [.pc] s (s.skipIf c) :=
  setPc_unchangedBut_pc s (if c then s.pc + 2 else s.pc)

theorem skipIf_pc_toNat (s : State) (c : Bool) :
    (s.skipIf c).pc.toNat = if c then (s.pc.toNat + 2) % 65536 else s.pc.toNat := by
  cases c
  · rfl
  · exact BitVec.toNat_add s.pc 2

theorem skipIf_beq_pc_toNat (s : State) (a b : Byte) :
    (s.skipIf (a == b)).pc.toNat = if a = b then (s.pc.toNat + 2) % 65536 else s.pc.toNat := by
  simp only [skipIf_pc_toNat, beq_iff_eq]

theorem skipIf_bne_pc_toNat (s : State) (a b : Byte) :
    (s.skipIf (a != b)).pc.toNat = if a = b then s.pc.toNat else (s.pc.toNat + 2) % 65536 := by
  simp only [skipIf_pc_toNat, bne_iff_ne, ne_eq, ite_not]

/-! ## 3XNN (R141) -/

theorem decode_seImm (w : Word) (h : w &&& 0xF000 = 0x3000) : decode w = .instr (.seImm (nib1 w) (loByte w)) := by
  have hop : nib0 w = 3 := (and_F000_iff w 3).mp h
  simp [decode_eq_instr_iff, directInstr, hop]

theorem exec_seImm (x : Reg) (nn : Byte) (s : State) :
    exec (.seImm x nn) s = .next (s.skipIf (s.readReg x == nn)) := rfl

/-- Settles O8: the skip's condition is the equality of VX and NN. -/
theorem seImmSkipsWhenEqual : Obligations.SeImmSkipsWhenEqual :=
  ⟨decode_seImm, fun s x nn =>
    ⟨_, exec_seImm x nn s, skipIf_beq_pc_toNat s (s.readReg x) nn, skipIf_unchangedBut_pc s _⟩⟩

/-! ## 4XNN (R142) -/

theorem decode_sneImm (w : Word) (h : w &&& 0xF000 = 0x4000) : decode w = .instr (.sneImm (nib1 w) (loByte w)) := by
  have hop : nib0 w = 4 := (and_F000_iff w 4).mp h
  simp [decode_eq_instr_iff, directInstr, hop]

theorem exec_sneImm (x : Reg) (nn : Byte) (s : State) :
    exec (.sneImm x nn) s = .next (s.skipIf (s.readReg x != nn)) := rfl

/-- Settles O9: the skip's condition is that VX and NN differ. -/
theorem sneImmSkipsWhenDifferent : Obligations.SneImmSkipsWhenDifferent :=
  ⟨decode_sneImm, fun s x nn =>
    ⟨_, exec_sneImm x nn s, skipIf_bne_pc_toNat s (s.readReg x) nn, skipIf_unchangedBut_pc s _⟩⟩

/-! ## 5XY0 (R143) -/

theorem decode_seReg (w : Word) (h : w &&& 0xF00F = 0x5000) : decode w = .instr (.seReg (nib1 w) (nib2 w)) := by
  obtain ⟨hop, hsub⟩ : nib0 w = 5 ∧ nib3 w = 0 := (and_F00F_iff w 5 0).mp h
  simp [decode_eq_instr_iff, directInstr, hop, hsub]

theorem decode_5xyn_unsupported (w : Word) (h : w &&& 0xF000 = 0x5000) (hn : nib3 w ≠ 0) :
    decode w = .unsupportedInstruction w := by
  have hop : nib0 w = 5 := (and_F000_iff w 5).mp h
  refine (decode_eq_unsupported_iff w w).mpr ⟨?_, rfl⟩
  simpa [directInstr, hop] using hn

theorem exec_seReg (x y : Reg) (s : State) :
    exec (.seReg x y) s = .next (s.skipIf (s.readReg x == s.readReg y)) := rfl

/-- Settles O10: the skip's condition is the equality of VX and VY, and no row but 5XY0 has the top nibble 5. -/
theorem seRegSkipsWhenEqual : Obligations.SeRegSkipsWhenEqual :=
  ⟨decode_seReg, decode_5xyn_unsupported, fun s x y =>
    ⟨_, exec_seReg x y s, skipIf_beq_pc_toNat s (s.readReg x) (s.readReg y), skipIf_unchangedBut_pc s _⟩⟩

/-! ## 9XY0 (R144) -/

theorem decode_sneReg (w : Word) (h : w &&& 0xF00F = 0x9000) : decode w = .instr (.sneReg (nib1 w) (nib2 w)) := by
  obtain ⟨hop, hsub⟩ : nib0 w = 9 ∧ nib3 w = 0 := (and_F00F_iff w 9 0).mp h
  simp [decode_eq_instr_iff, directInstr, hop, hsub]

theorem decode_9xyn_unsupported (w : Word) (h : w &&& 0xF000 = 0x9000) (hn : nib3 w ≠ 0) :
    decode w = .unsupportedInstruction w := by
  have hop : nib0 w = 9 := (and_F000_iff w 9).mp h
  refine (decode_eq_unsupported_iff w w).mpr ⟨?_, rfl⟩
  simpa [directInstr, hop] using hn

theorem exec_sneReg (x y : Reg) (s : State) :
    exec (.sneReg x y) s = .next (s.skipIf (s.readReg x != s.readReg y)) := rfl

/-- Settles O11: the skip's condition is that VX and VY differ, and no row but 9XY0 has the top nibble 9. -/
theorem sneRegSkipsWhenDifferent : Obligations.SneRegSkipsWhenDifferent :=
  ⟨decode_sneReg, decode_9xyn_unsupported, fun s x y =>
    ⟨_, exec_sneReg x y s, skipIf_bne_pc_toNat s (s.readReg x) (s.readReg y), skipIf_unchangedBut_pc s _⟩⟩

end Sys2Proof
end

section
/-! The two immediate forms 6XNN and 7XNN (43_alu.md): one register written, and no flag. -/

namespace Sys2Proof

open Sys2Proof.Machine

/-- The frame of a write of one general register: that register alone may change (R20). -/
theorem writeReg_unchangedBut_reg (s : State) (x : Reg) (b : Byte) : UnchangedBut [x] [] s (s.writeReg x b) := by
  refine ⟨fun r hr => s.readReg_writeReg_ne x r b (List.ne_of_not_mem_cons hr), fun p _ => ?_⟩
  cases p <;> simp [Part.same]

/-! ## 6XNN (R162) -/

theorem decode_ldImm (w : Word) (h : w &&& 0xF000 = 0x6000) : decode w = .instr (.ldImm (nib1 w) (loByte w)) := by
  have hop : nib0 w = 6 := (and_F000_iff w 6).mp h
  simp [decode_eq_instr_iff, directInstr, hop]

theorem exec_ldImm (x : Reg) (nn : Byte) (s : State) : exec (.ldImm x nn) s = .next (s.writeReg x nn) := rfl

/-- Settles O14: the load is one register write, of NN. -/
theorem ldImmLoadsImmediate : Obligations.LdImmLoadsImmediate :=
  ⟨decode_ldImm, fun s x nn =>
    ⟨_, exec_ldImm x nn s, s.readReg_writeReg_self x nn, writeReg_unchangedBut_reg s x nn⟩⟩

/-! ## 7XNN (R163) -/

theorem decode_addImm (w : Word) (h : w &&& 0xF000 = 0x7000) : decode w = .instr (.addImm (nib1 w) (loByte w)) := by
  have hop : nib0 w = 7 := (and_F000_iff w 7).mp h
  simp [decode_eq_instr_iff, directInstr, hop]

/-- The carry of the sum is dropped: no flag is written. -/
theorem exec_addImm (x : Reg) (nn : Byte) (s : State) :
    exec (.addImm x nn) s = .next (s.writeReg x (aluAdd (s.readReg x) nn).value) := rfl

theorem aluAdd_value_toNat (a b : Byte) : (aluAdd a b).value.toNat = (a.toNat + b.toNat) % 256 :=
  (BitVec.toNat_ofNat _ 8).trans (Nat.mod_mod _ 256)

/-- Settles O15: the addition is one register write, of the sum modulo 256, and writes no flag. -/
theorem addImmWrapsAndTouchesNoFlag : Obligations.AddImmWrapsAndTouchesNoFlag := by
  refine ⟨decode_addImm, fun s x nn => ⟨_, exec_addImm x nn s, ?_, writeReg_unchangedBut_reg s x _⟩⟩
  rw [s.readReg_writeReg_self, aluAdd_value_toNat]

end Sys2Proof
end

section
/-! The index load ANNN (44_index_memory.md): one write of I, of the zero-extended address. -/

namespace Sys2Proof

open Sys2Proof.Machine

theorem setIndex_unchangedBut_index (s : State) (v : Word) : UnchangedBut [] [.index] s (s.setIndex v) := by
  refine ⟨fun r _ => State.readReg_congr (s.setIndex_regs v) r, fun p hp => ?_⟩
  cases p
  case index => exact absurd List.mem_cons_self hp
  all_goals simp [Part.same]

/-! ## ANNN (R200) -/

theorem decode_ldIndex (w : Word) (h : w &&& 0xF000 = 0xA000) :
    decode w = .instr (.ldIndex (w.extractLsb' 0 12)) := by
  have hop : nib0 w = 10 := (and_F000_iff w 10).mp h
  simp [decode_eq_instr_iff, directInstr, hop]

theorem exec_ldIndex (nnn : Addr12) (s : State) :
    exec (.ldIndex nnn) s = .next (s.setIndex (addrOperand nnn)) := rfl

/-- Settles O23: the load is one write of I, of the address operand. -/
theorem ldIndexLoadsItsAddress : Obligations.LdIndexLoadsItsAddress :=
  ⟨decode_ldIndex, fun s nnn =>
    ⟨_, exec_ldIndex nnn s, addrOperand_toNat nnn, setIndex_unchangedBut_index s _⟩⟩

end Sys2Proof
end

section
/-! The start of a frame (60_exceptions.md section 4): ST's count down and the one `buzz` request that reports it. -/

namespace Sys2Proof

open Sys2Proof.Machine

/-! ## The frame call and its frame -/

/-- With no fault and no call running, the step that makes the frame call is the frame's start (R251). -/
theorem step_of_frame_call (s : State) (n : Nat) (cs : List HostCall) (hfault : s.fault = none)
    (hpending : s.pending = none) (hframe : s.frame = none) (hcalls : s.calls = .frame n :: cs) :
    step s = .next (State.startFrame { s with calls := cs } n) := by
  rw [step_of_makes s (.frame n) cs ⟨hcalls, Or.inr ⟨hpending, hframe⟩⟩]
  simp [State.hostCall, hfault]

/-- What the start of a frame writes, `calls` being the list the call is taken from. -/
theorem startFrame_unchangedBut (s : State) (n : Nat) (cs : List HostCall) :
    UnchangedBut [] [.delay, .sound, .frame, .stop, .events, .calls] s (State.startFrame { s with calls := cs } n) := by
  refine ⟨fun r _ => State.readReg_startFrame _ n r, fun p hp => ?_⟩
  cases p
  case delay | sound | frame | stop | events | calls => exact absurd (by decide) hp
  all_goals simp [Part.same]

/-! ## The buzz request (R253) -/

theorem startFrame_events_of_sound_ne_zero (s : State) (n : Nat) (h : s.sound.toNat ≠ 0) :
    (s.startFrame n).events = s.events ++ [.buzz true] := by
  have hne : s.sound ≠ 0 := fun h0 => h (congrArg BitVec.toNat h0)
  rw [State.startFrame_events, bne_iff_ne.mpr hne]

theorem startFrame_events_of_sound_eq_zero (s : State) (n : Nat) (h : s.sound.toNat = 0) :
    (s.startFrame n).events = s.events ++ [.buzz false] := by
  have heq : s.sound = 0 := BitVec.eq_of_toNat_eq h
  rw [State.startFrame_events, heq, bne_self_eq_false]

/-- Settles O58: the step is the frame's start, whose request says what ST was before its count down. -/
theorem frameStartCountsSoundTimerAndBuzzes : Obligations.FrameStartCountsSoundTimerAndBuzzes :=
  fun s n cs hfault hpending hframe hcalls =>
    ⟨_, step_of_frame_call s n cs hfault hpending hframe hcalls, countDown_toNat s.sound,
      startFrame_events_of_sound_ne_zero { s with calls := cs } n,
      startFrame_events_of_sound_eq_zero { s with calls := cs } n, startFrame_unchangedBut s n cs⟩

end Sys2Proof
end

section
/-! The encoder and the decoder are inverse to each other (30_encoding.md sections 1 to 3): a format's word is a given word
exactly if its fields are the word's, and so an instruction is decoded from its own encoding and from no other word. -/

namespace Sys2Proof

/-! ## A format's word, field by field (R90) -/

theorem formAddr_eq_iff (op : Nibble) (nnn : Addr12) (w : Word) :
    formAddr op nnn = w ↔ nib0 w = op ∧ w.extractLsb' 0 12 = nnn := by
  have := nnn.isLt
  simp only [← BitVec.toNat_inj, formAddr_toNat, nib0_toNat, BitVec.extractLsb'_toNat, Nat.shiftRight_zero]
  omega

theorem formImm_eq_iff (op : Nibble) (x : Reg) (nn : Byte) (w : Word) :
    formImm op x nn = w ↔ nib0 w = op ∧ nib1 w = x ∧ loByte w = nn := by
  have := x.isLt
  have := nn.isLt
  simp only [← BitVec.toNat_inj, formImm_toNat, nib0_toNat, nib1_toNat, loByte_toNat]
  omega

theorem formXsub_eq_iff (op : Nibble) (x : Reg) (sub : Byte) (w : Word) :
    formXsub op x sub = w ↔ nib0 w = op ∧ nib1 w = x ∧ loByte w = sub :=
  formImm_eq_iff op x sub w

theorem formRR_eq_iff (op : Nibble) (x y : Reg) (sub : Nibble) (w : Word) :
    formRR op x y sub = w ↔ nib0 w = op ∧ nib1 w = x ∧ nib2 w = y ∧ nib3 w = sub := by
  have := x.isLt
  have := y.isLt
  have := sub.isLt
  simp only [← BitVec.toNat_inj, formRR_toNat, nib0_toNat, nib1_toNat, nib2_toNat, nib3_toNat]
  omega

@[simp] theorem nib0_formAddr (op : Nibble) (nnn : Addr12) : nib0 (formAddr op nnn) = op :=
  ((formAddr_eq_iff op nnn _).mp rfl).1

@[simp] theorem nib0_formImm (op : Nibble) (x : Reg) (nn : Byte) : nib0 (formImm op x nn) = op :=
  ((formImm_eq_iff op x nn _).mp rfl).1

@[simp] theorem nib1_formImm (op : Nibble) (x : Reg) (nn : Byte) : nib1 (formImm op x nn) = x := by
  obtain ⟨_, h, _⟩ := (formImm_eq_iff op x nn _).mp rfl
  exact h

@[simp] theorem loByte_formImm (op : Nibble) (x : Reg) (nn : Byte) : loByte (formImm op x nn) = nn := by
  obtain ⟨_, _, h⟩ := (formImm_eq_iff op x nn _).mp rfl
  exact h

@[simp] theorem nib0_formXsub (op : Nibble) (x : Reg) (sub : Byte) : nib0 (formXsub op x sub) = op :=
  nib0_formImm op x sub

@[simp] theorem nib1_formXsub (op : Nibble) (x : Reg) (sub : Byte) : nib1 (formXsub op x sub) = x :=
  nib1_formImm op x sub

@[simp] theorem loByte_formXsub (op : Nibble) (x : Reg) (sub : Byte) : loByte (formXsub op x sub) = sub :=
  loByte_formImm op x sub

@[simp] theorem nib0_formRR (op : Nibble) (x y : Reg) (sub : Nibble) : nib0 (formRR op x y sub) = op :=
  ((formRR_eq_iff op x y sub _).mp rfl).1

@[simp] theorem nib1_formRR (op : Nibble) (x y : Reg) (sub : Nibble) : nib1 (formRR op x y sub) = x := by
  obtain ⟨_, h, _, _⟩ := (formRR_eq_iff op x y sub _).mp rfl
  exact h

@[simp] theorem nib2_formRR (op : Nibble) (x y : Reg) (sub : Nibble) : nib2 (formRR op x y sub) = y := by
  obtain ⟨_, _, h, _⟩ := (formRR_eq_iff op x y sub _).mp rfl
  exact h

@[simp] theorem nib3_formRR (op : Nibble) (x y : Reg) (sub : Nibble) : nib3 (formRR op x y sub) = sub := by
  obtain ⟨_, _, _, h⟩ := (formRR_eq_iff op x y sub _).mp rfl
  exact h

/-! ## An instruction is decoded from its encoding, and from that word alone -/

theorem directInstr_encode (i : Instr) : directInstr (encode i) = some i := by
  cases i
  case cls | ret => rfl
  all_goals simp [encode, directInstr, formAddr_extract_addr]

/-- Every row of the direct match gives back the word it was read from, by the row's format. -/
theorem encode_of_directInstr (w : Word) (i : Instr) (h : directInstr w = some i) : encode i = w := by
  unfold directInstr at h
  split at h
  case h_1 =>
    split_ifs at h with hw hw <;> obtain rfl := Option.some.inj h <;> exact hw.symm
  case h_2 | h_3 | h_11 | h_12 =>
    obtain rfl := Option.some.inj h
    exact (formAddr_eq_iff _ _ w).mpr ⟨BitVec.eq_of_toNat_eq ‹_›, rfl⟩
  case h_4 | h_5 | h_7 | h_8 | h_13 =>
    obtain rfl := Option.some.inj h
    exact (formImm_eq_iff _ _ _ w).mpr ⟨BitVec.eq_of_toNat_eq ‹_›, rfl, rfl⟩
  case h_6 | h_10 =>
    split_ifs at h with hsub
    obtain rfl := Option.some.inj h
    exact (formRR_eq_iff _ _ _ _ w).mpr ⟨BitVec.eq_of_toNat_eq ‹_›, rfl, rfl, hsub⟩
  case h_9 hop =>
    split at h
    case h_10 => cases h
    all_goals
      obtain rfl := Option.some.inj h
      exact (formRR_eq_iff _ _ _ _ w).mpr ⟨BitVec.eq_of_toNat_eq hop, rfl, rfl, BitVec.eq_of_toNat_eq ‹_›⟩
  case h_14 hop =>
    obtain rfl := Option.some.inj h
    exact (formRR_eq_iff _ _ _ _ w).mpr ⟨BitVec.eq_of_toNat_eq hop, rfl, rfl, rfl⟩
  case h_15 hop =>
    split_ifs at h with hsub hsub <;> obtain rfl := Option.some.inj h <;>
      exact (formXsub_eq_iff _ _ _ w).mpr ⟨BitVec.eq_of_toNat_eq hop, rfl, hsub⟩
  case h_16 =>
    have hlt := (nib0 w).isLt
    have hop : nib0 w = 15 := by
      simp only [imp_false] at *
      exact BitVec.eq_of_toNat_eq (show (nib0 w).toNat = 15 by omega)
    split_ifs at h with hsub hsub hsub hsub hsub hsub hsub <;> obtain rfl := Option.some.inj h <;>
      exact (formXsub_eq_iff _ _ _ w).mpr ⟨hop, rfl, hsub⟩

/-- The decoder is the encoder's inverse. -/
theorem decode_eq_instr_iff_encode (w : Word) (i : Instr) : decode w = .instr i ↔ encode i = w := by
  rw [decode_eq_instr_iff]
  refine ⟨encode_of_directInstr w i, ?_⟩
  rintro rfl
  exact directInstr_encode i

/-- Settles O31: no other word is decoded to an instruction than its encoding. -/
theorem decodedWordIsItsEncoding : Obligations.DecodedWordIsItsEncoding :=
  fun w i => (decode_eq_instr_iff_encode w i).mp

theorem decode_encode (i : Instr) : decode (encode i) = .instr i := (decode_eq_instr_iff_encode _ i).mpr rfl

/-- Settles O30: the encoding is decoded to its instruction, whether read as a word or as its two bytes. -/
theorem decodeEncodeRoundTrip : Obligations.DecodeEncodeRoundTrip := by
  refine fun i => ⟨decode_encode i, fun rest => ?_⟩
  simp [decodeBytes, decode_encode i]

/-! ## The words of each format by their fixed bits -/

section
variable (w : Word) {op : Nibble}

theorem formAddr_of_mask (h : w &&& 0xF000 = formAddr op 0) : formAddr op (w.extractLsb' 0 12) = w :=
  (formAddr_eq_iff _ _ w).mpr ⟨(and_F000_iff w op).mp h, rfl⟩

theorem formImm_of_mask (h : w &&& 0xF000 = formAddr op 0) : formImm op (nib1 w) (loByte w) = w :=
  (formImm_eq_iff _ _ _ w).mpr ⟨(and_F000_iff w op).mp h, rfl, rfl⟩

theorem formDraw_of_mask (h : w &&& 0xF000 = formAddr op 0) : formRR op (nib1 w) (nib2 w) (nib3 w) = w :=
  (formRR_eq_iff _ _ _ _ w).mpr ⟨(and_F000_iff w op).mp h, rfl, rfl, rfl⟩

theorem formRR_of_mask {sub : Nibble} (h : w &&& 0xF00F = formRR op 0 0 sub) :
    formRR op (nib1 w) (nib2 w) sub = w := by
  obtain ⟨hop, hsub⟩ := (and_F00F_iff w op sub).mp h
  exact (formRR_eq_iff _ _ _ _ w).mpr ⟨hop, rfl, rfl, hsub⟩

theorem formXsub_of_mask {sub : Byte} (h : w &&& 0xF0FF = formXsub op 0 sub) :
    formXsub op (nib1 w) sub = w := by
  obtain ⟨hop, hsub⟩ := (and_F0FF_iff w op sub).mp h
  exact (formXsub_eq_iff _ _ _ w).mpr ⟨hop, rfl, hsub⟩

end

/-! ## The illegal words (R92) -/

theorem ite_some_eq_none_iff {α : Type} {p : Prop} [Decidable p] (a : α) (o : Option α) :
    (if p then some a else o) = none ↔ ¬ p ∧ o = none := by
  split_ifs with hp <;> simp [hp]

/-- Settles O32, by the top nibble of the word; the class of the top nibble 8 also by its bottom one. -/
theorem illegalWordsAreTheSixClasses : Obligations.IllegalWordsAreTheSixClasses := by
  intro w
  rw [decode_eq_unsupported_iff]
  rcases nibble_cases (nib0 w) with hop | hop | hop | hop | hop | hop | hop | hop | hop | hop | hop | hop | hop |
    hop | hop | hop
  case inr.inr.inr.inr.inr.inr.inr.inr.inl =>
    rcases nibble_cases (nib3 w) with hsub | hsub | hsub | hsub | hsub | hsub | hsub | hsub | hsub | hsub | hsub |
      hsub | hsub | hsub | hsub | hsub <;> simp [directInstr, hop, hsub]
  all_goals simp [directInstr, hop, ite_some_eq_none_iff]
  tauto

/-! ## No two rows match one word (R91) -/

/-- Two slots that no nibble agrees with: literals of two values. -/
def Slot.clashes : Slot → Slot → Bool
  | .lit u, .lit v => u != v
  | _, _ => false

/-- Two patterns with a clash at one of their positions. -/
def Pattern.clashes (p q : Pattern) : Bool :=
  p.s0.clashes q.s0 || p.s1.clashes q.s1 || p.s2.clashes q.s2 || p.s3.clashes q.s3

theorem Slot.not_agrees_of_clashes (s t : Slot) (n : Nibble) (h : s.clashes t = true) :
    ¬ (s.agrees n = true ∧ t.agrees n = true) := by
  cases s <;> cases t <;> simp only [Slot.clashes, Slot.agrees, bne_iff_ne, beq_iff_eq, Bool.false_eq_true] at h ⊢
  rintro ⟨hs, ht⟩
  exact h (hs.trans ht.symm)

theorem Pattern.not_matchesWord_of_clashes (p q : Pattern) (w : Word) (h : p.clashes q = true) :
    ¬ (p.matchesWord w = true ∧ q.matchesWord w = true) := by
  simp only [Pattern.clashes, Bool.or_eq_true] at h
  simp only [Pattern.matchesWord, Bool.and_eq_true]
  rintro ⟨⟨⟨⟨p0, p1⟩, p2⟩, p3⟩, ⟨⟨q0, q1⟩, q2⟩, q3⟩
  rcases h with ((h | h) | h) | h
  · exact Slot.not_agrees_of_clashes _ _ _ h ⟨p0, q0⟩
  · exact Slot.not_agrees_of_clashes _ _ _ h ⟨p1, q1⟩
  · exact Slot.not_agrees_of_clashes _ _ _ h ⟨p2, q2⟩
  · exact Slot.not_agrees_of_clashes _ _ _ h ⟨p3, q3⟩

/-- Settles O36: any two rows of the table clash at a literal position. -/
theorem opcodePatternsAreDisjoint : Obligations.OpcodePatternsAreDisjoint := by
  have hclash : opcodeTable.Pairwise fun p q => p.1.clashes q.1 = true := by decide
  exact hclash.imp fun h w => Pattern.not_matchesWord_of_clashes _ _ w h

/-- Settles O37, by running the decoder on the nine words. -/
theorem sampleWordsDecodeAsListed : Obligations.SampleWordsDecodeAsListed := by
  unfold Obligations.SampleWordsDecodeAsListed
  decide

end Sys2Proof
end

section
/-! The reading of pattern texts (30_encoding.md R80 to R83): which characters are literal, when a pattern matches, and what a
field gathers. -/

namespace Sys2Proof

/-! ## Literal characters (R80) -/

/-- The hexadecimal digits in either case, as characters. -/
def hexChars : List Char :=
  ['0', '1', '2', '3', '4', '5', '6', '7', '8', '9', 'A', 'B', 'C', 'D', 'E', 'F', 'a', 'b', 'c', 'd', 'e', 'f']

theorem hexVal_eq_none_of_not_mem (c : Char) (h : c ∉ hexChars) : hexVal c = none := by
  have hcode : c.toNat ∉ hexChars.map Char.toNat := fun hc =>
    h ((List.mem_map_of_injective fun _ _ => Char.toNat_inj.mp).mp hc)
  have hrange : ∀ a b : Char, a ≤ c ∧ c ≤ b → a.toNat ≤ c.toNat ∧ c.toNat ≤ b.toNat := fun _ _ h => h
  simp only [hexChars, List.map_cons, List.map_nil, List.mem_cons, List.not_mem_nil, Char.reduceToNat] at hcode
  unfold hexVal
  split_ifs with h1 h2 h3
  · have := hrange _ _ h1; simp only [Char.reduceToNat] at this; omega
  · have := hrange _ _ h2; simp only [Char.reduceToNat] at this; omega
  · have := hrange _ _ h3; simp only [Char.reduceToNat] at this; omega
  · rfl

/-- The sixteen digits in order of value, with upper case letters. -/
def upperDigits : List Char := ['0', '1', '2', '3', '4', '5', '6', '7', '8', '9', 'A', 'B', 'C', 'D', 'E', 'F']

/-- The sixteen digits in order of value, with lower case letters (D24). -/
def lowerDigits : List Char := ['0', '1', '2', '3', '4', '5', '6', '7', '8', '9', 'a', 'b', 'c', 'd', 'e', 'f']

theorem hexVal_eq_some_iff (c : Char) (v : Nibble) :
    hexVal c = some v ↔ upperDigits[v.toNat]? = some c ∨ lowerDigits[v.toNat]? = some c := by
  by_cases hc : c ∈ hexChars
  · have hall : ∀ c ∈ hexChars, ∀ v : Nibble,
        hexVal c = some v ↔ upperDigits[v.toNat]? = some c ∨ lowerDigits[v.toNat]? = some c := by
      intro c hc
      fin_cases hc <;> decide
    exact hall c hc v
  · have hsub : upperDigits ⊆ hexChars ∧ lowerDigits ⊆ hexChars := by decide
    rw [hexVal_eq_none_of_not_mem c hc]
    refine iff_of_false (by simp) ?_
    rintro (h | h)
    · exact hc (hsub.1 (List.mem_of_getElem? h))
    · exact hc (hsub.2 (List.mem_of_getElem? h))

/-! ## Slots (R81, R82) -/

theorem readSlot_agrees_iff (c : Char) (n : Nibble) :
    (readSlot c).agrees n = true ↔ ∀ v, hexVal c = some v → v = n := by
  cases h : hexVal c <;> simp [readSlot, h, Slot.agrees]

theorem readSlot_eq_mask_iff (c letter : Char) : readSlot c = .mask letter ↔ hexVal c = none ∧ c = letter := by
  cases h : hexVal c <;> simp [readSlot, h]

/-- A slot gathers its nibble for its own letter alone. -/
theorem readSlot_gather (c letter : Char) (hl : hexVal letter = none) (n : Nibble) (acc : Nat) :
    (readSlot c).gather n letter acc = if c = letter then acc * 16 + n.toNat else acc := by
  have hiff : readSlot c = .mask letter ↔ c = letter := by
    rw [readSlot_eq_mask_iff]
    exact ⟨fun h => h.2, fun h => ⟨h ▸ hl, h⟩⟩
  simp only [Slot.gather, hiff]

theorem readSlot_gather_of_ne (c letter : Char) (hne : letter ≠ c) (n : Nibble) (acc : Nat) :
    (readSlot c).gather n letter acc = acc := by
  rw [Slot.gather, if_neg]
  rw [readSlot_eq_mask_iff]
  exact fun h => hne h.2.symm

/-! ## Fields (R82) -/

/-- One step of the fold that gathers a letter's nibbles from the left. -/
def gatherStep (letter : Char) (acc : Nat) (q : Char × Nibble) : Nat :=
  if q.1 = letter then acc * 16 + q.2.toNat else acc

/-- Each occurrence of the letter adds one hexadecimal digit. -/
theorem foldl_gatherStep_lt (letter : Char) (l : List (Char × Nibble)) (acc : Nat) :
    l.foldl (gatherStep letter) acc < (acc + 1) * 16 ^ (l.map Prod.fst).count letter := by
  induction l generalizing acc with
  | nil => simp
  | cons q l ih =>
    obtain ⟨c, n⟩ := q
    have hn := n.isLt
    refine Nat.lt_of_lt_of_le (ih (gatherStep letter acc (c, n))) ?_
    by_cases hc : c = letter
    · subst hc
      simp only [gatherStep, if_true, List.map_cons, List.count_cons_self, Nat.pow_succ]
      rw [Nat.mul_comm (16 ^ _) 16, ← Nat.mul_assoc]
      exact Nat.mul_le_mul_right _ (by omega)
    · simp [gatherStep, hc]

/-- The pattern of four characters. -/
def patternOf (a b c d : Char) : Pattern := ⟨readSlot a, readSlot b, readSlot c, readSlot d⟩

theorem patternOf_matchesWord_iff (a b c d : Char) (w : Word) :
    (patternOf a b c d).matchesWord w = true ↔
      (∀ v, hexVal a = some v → v = nib0 w) ∧ (∀ v, hexVal b = some v → v = nib1 w) ∧
      (∀ v, hexVal c = some v → v = nib2 w) ∧ (∀ v, hexVal d = some v → v = nib3 w) := by
  simp only [patternOf, Pattern.matchesWord, Bool.and_eq_true, readSlot_agrees_iff, and_assoc]

theorem patternOf_field (a b c d letter : Char) (w : Word) (hl : hexVal letter = none) :
    (patternOf a b c d).field w letter =
      [(a, nib0 w), (b, nib1 w), (c, nib2 w), (d, nib3 w)].foldl (gatherStep letter) 0 := by
  simp only [patternOf, Pattern.field, readSlot_gather _ _ hl, List.foldl_cons, List.foldl_nil, gatherStep]

theorem patternOf_field_lt (a b c d letter : Char) (w : Word) (hl : hexVal letter = none) :
    (patternOf a b c d).field w letter < 16 ^ [a, b, c, d].count letter := by
  rw [patternOf_field a b c d letter w hl]
  simpa using foldl_gatherStep_lt letter [(a, nib0 w), (b, nib1 w), (c, nib2 w), (d, nib3 w)] 0

theorem patternOf_field_of_absent (a b c d letter : Char) (w : Word) (h : letter ∉ [a, b, c, d]) :
    (patternOf a b c d).field w letter = 0 := by
  simp only [List.mem_cons, List.not_mem_nil, or_false, not_or] at h
  obtain ⟨ha, hb, hc, hd⟩ := h
  simp only [patternOf, Pattern.field, readSlot_gather_of_ne _ _ ha, readSlot_gather_of_ne _ _ hb,
    readSlot_gather_of_ne _ _ hc, readSlot_gather_of_ne _ _ hd]

/-- Settles O34: a text of four is read slot by slot, and a field is the fold over its slots. -/
theorem patternsMatchLiteralsAndGatherFields : Obligations.PatternsMatchLiteralsAndGatherFields :=
  ⟨hexVal_eq_some_iff, fun a b c d w =>
    ⟨patternOf a b c d, rfl, patternOf_matchesWord_iff a b c d w,
      fun letter hl => ⟨patternOf_field a b c d letter w hl, patternOf_field_lt a b c d letter w hl⟩,
      fun letter => patternOf_field_of_absent a b c d letter w⟩⟩

end Sys2Proof
end

section
/-! What is left unchanged: frames of consecutive updates, of updates that write more than one part, and of each shared
operation that the instructions use. -/

namespace Sys2Proof

open Sys2Proof.Machine

/-! ## Frames compose -/

theorem Machine.UnchangedBut.trans {rs qs : List Reg} {ps os : List Part} {s t u : State}
    (h : UnchangedBut rs ps s t) (k : UnchangedBut qs os t u) : UnchangedBut (rs ++ qs) (ps ++ os) s u := by
  refine ⟨fun r hr => ?_, fun p hp => ?_⟩
  · rw [List.mem_append, not_or] at hr
    rw [k.1 r hr.2, h.1 r hr.1]
  · rw [List.mem_append, not_or] at hp
    have hst := h.2 p hp.1
    have htu := k.2 p hp.2
    cases p
    case memory => exact fun a => (htu a).trans (hst a)
    all_goals exact Eq.trans htu hst

theorem Machine.UnchangedBut.mono {rs qs : List Reg} {ps os : List Part} {s t : State}
    (h : UnchangedBut rs ps s t) (hr : rs ⊆ qs) (hp : ps ⊆ os) : UnchangedBut qs os s t :=
  ⟨fun r hq => h.1 r fun hmem => hq (hr hmem), fun p ho => h.2 p fun hmem => ho (hp hmem)⟩

theorem Machine.Part.forall_iff (P : Part → Prop) :
    (∀ p, P p) ↔ P .index ∧ P .pc ∧ P .stack ∧ P .delay ∧ P .sound ∧ P .memory ∧ P .fault ∧ P .halt ∧ P .frame ∧
      P .stop ∧ P .pending ∧ P .params ∧ P .events ∧ P .calls ∧ P .draws ∧ P .wait := by
  refine ⟨fun h => ⟨h _, h _, h _, h _, h _, h _, h _, h _, h _, h _, h _, h _, h _, h _, h _, h _⟩, ?_⟩
  rintro ⟨_, _, _, _, _, _, _, _, _, _, _, _, _, _, _, _⟩ p
  cases p <;> assumption

/-- A state with the same register file is unchanged but for the parts that are not the same. -/
theorem unchangedBut_of_regs_eq {ps : List Part} {s t : State} (hregs : t.regs = s.regs)
    (hparts : ∀ p, p ∉ ps → p.same s t) : UnchangedBut [] ps s t :=
  ⟨fun r _ => State.readReg_congr hregs r, hparts⟩

/-! ## The frame of each operation -/

theorem ask_unchangedBut (s : State) (e : Event) : UnchangedBut [] [.events, .draws] s (s.ask e) :=
  unchangedBut_of_regs_eq rfl (by simp [Part.forall_iff, Part.same])

theorem hold_unchangedBut (s : State) (e : Event) (p : Pending) :
    UnchangedBut [] [.events, .pending] s (s.hold e p) :=
  unchangedBut_of_regs_eq rfl (by simp [Part.forall_iff, Part.same])

theorem redraw_unchangedBut (s : State) : UnchangedBut [] [.draws, .wait] s s.redraw :=
  unchangedBut_of_regs_eq rfl (by simp [Part.forall_iff, Part.same])

theorem setDelay_unchangedBut (s : State) (v : Byte) : UnchangedBut [] [.delay] s (s.setDelay v) :=
  unchangedBut_of_regs_eq rfl (by simp [Part.forall_iff, Part.same])

theorem setSound_unchangedBut (s : State) (v : Byte) : UnchangedBut [] [.sound] s (s.setSound v) :=
  unchangedBut_of_regs_eq rfl (by simp [Part.forall_iff, Part.same])

theorem setMem_unchangedBut (s : State) (m : Memory) : UnchangedBut [] [.memory] s { s with mem := m } :=
  unchangedBut_of_regs_eq rfl (by simp [Part.forall_iff, Part.same])

theorem setWait_unchangedBut (s : State) (w : Option Nat) : UnchangedBut [] [.wait] s { s with wait := w } :=
  unchangedBut_of_regs_eq rfl (by simp [Part.forall_iff, Part.same])

theorem writeFlag_unchangedBut (s : State) (f : Byte) : UnchangedBut [0xF] [] s (s.writeFlag f) :=
  writeReg_unchangedBut_reg s flagReg f

/-- R161: the result's register and the flag. -/
theorem writeAlu_unchangedBut (s : State) (x : Reg) (r : AluOut) : UnchangedBut [x, 0xF] [] s (s.writeAlu x r) :=
  (writeReg_unchangedBut_reg s x r.value).trans (writeFlag_unchangedBut _ r.flag)

end Sys2Proof
end

section
/-! The sprite instruction DXYN (40_video.md) and the accesses at I that it shares with FX65. -/

namespace Sys2Proof

open Sys2Proof.Machine

theorem memSlice_of_inRange (s : State) (a n : Nat) (h : a + n ≤ s.params.memSize.bytes) :
    s.memSlice a n = some (Memory.readList s.mem a n) := by
  rcases s.memSlice_cases a n with ⟨_, e⟩ | ⟨hout, _⟩
  · exact e
  · omega

theorem memSlice_of_outOfRange (s : State) (a n : Nat) (h : s.params.memSize.bytes < a + n) :
    s.memSlice a n = none := by
  rcases s.memSlice_cases a n with ⟨hin, _⟩ | ⟨_, e⟩
  · omega
  · exact e

theorem exec_drw_of_inRange (x y : Reg) (n : Nibble) (s : State)
    (h : s.dataAddr + n.toNat ≤ s.params.memSize.bytes) :
    exec (.drw x y n) s =
      .next (s.drawWith x y (Memory.readList s.mem s.dataAddr n.toNat) (Config.collision s.draws)) := by
  simp [exec, execDrw, State.sprite, memSlice_of_inRange s _ _ h]

theorem exec_drw_of_outOfRange (x y : Reg) (n : Nibble) (s : State)
    (h : s.params.memSize.bytes < s.dataAddr + n.toNat) :
    exec (.drw x y n) s = .next (s.raiseOutOfBounds (.drw x y n) s.dataAddr) := by
  simp [exec, execDrw, State.sprite, memSlice_of_outOfRange s _ _ h]

theorem drawWith_unchangedBut (s : State) (x y : Reg) (sprite : List Byte) (c : Bool) :
    UnchangedBut [0xF] [.events, .draws] s (s.drawWith x y sprite c) :=
  (ask_unchangedBut s _).trans (writeFlag_unchangedBut _ _)

/-- On an unfaulted block the fault of an access records the instruction's word and the access's address (R243). -/
theorem raiseOutOfBounds_fault (s : State) (i : Instr) (a : Nat) (h : s.fault = none) :
    (s.raiseOutOfBounds i a).fault = some ⟨.outOfBoundsAccess, ⟨some (encode i), a⟩⟩ :=
  s.raise_fault_of_none h _ _ _

theorem raiseOutOfBounds_unchangedBut (s : State) (i : Instr) (a : Nat) :
    UnchangedBut [] [.fault] s (s.raiseOutOfBounds i a) := raise_unchangedBut_fault s _ _ _

/-- Settles O2: the sprite is the slice at I, and a slice out of range is a fault before any request. -/
theorem drwSendsSpriteAndSetsCollisionFlag : Obligations.DrwSendsSpriteAndSetsCollisionFlag := by
  refine ⟨fun w h => (decode_eq_instr_iff_encode _ _).mpr (formDraw_of_mask w h), fun s x y n hin => ?_,
    fun s x y n hf hout => ?_⟩
  · refine ⟨_, _, exec_drw_of_inRange x y n s hin, Memory.readList_length _ _ _, fun k hk => ?_, rfl,
      by simp [State.drawWith, flagReg, collisionFlag], rfl, drawWith_unchangedBut s x y _ _⟩
    rw [Memory.readList_getElem?, if_pos hk, State.dataAddr]
  · exact ⟨_, exec_drw_of_outOfRange x y n s hout, raiseOutOfBounds_fault s _ _ hf,
      raiseOutOfBounds_unchangedBut s _ _⟩

end Sys2Proof
end

section
/-! The call 2NNN (41_control_flow.md) and the nesting of calls and returns. -/

namespace Sys2Proof

open Sys2Proof.Machine

/-! ## 2NNN (R122) -/

theorem stackFull_iff (s : State) : s.stackFull = true ↔ s.params.stackLimit = some s.stack.length := by
  unfold State.stackFull
  cases s.params.stackLimit with
  | none => simp
  | some k => rw [beq_iff_eq, Option.some_inj, eq_comm]

theorem exec_call_of_not_full (s : State) (nnn : Addr12) (h : s.params.stackLimit ≠ some s.stack.length) :
    exec (.call nnn) s = .next ((s.setStack (s.stack ++ [s.pc])).setPc (addrOperand nnn)) := by
  have hroom : ¬ s.stackFull = true := fun hf => h ((stackFull_iff s).mp hf)
  rw [exec, execCall, if_neg hroom, State.push]

theorem exec_call_of_full (s : State) (nnn : Addr12) (h : s.params.stackLimit = some s.stack.length) :
    exec (.call nnn) s = .next (s.raise .stackOverflow (some (encode (.call nnn))) s.fetchAddr) := by
  rw [exec, execCall, if_pos ((stackFull_iff s).mpr h), State.raiseAtFetch]

/-- Settles O5: a call pushes and jumps, unless the stack has reached its limit. -/
theorem callPushesPcAndJumps : Obligations.CallPushesPcAndJumps := by
  refine ⟨fun w h => (decode_eq_instr_iff_encode _ _).mpr (formAddr_of_mask w h), fun s nnn h => ?_,
    fun s nnn a h hf hpc => ?_⟩
  · exact ⟨_, exec_call_of_not_full s nnn h, rfl, addrOperand_toNat nnn, setStack_setPc_unchangedBut s _ _⟩
  · refine ⟨_, exec_call_of_full s nnn h, ?_, raise_unchangedBut_fault s _ _ _⟩
    rw [State.raise_fault_of_none s hf, fetchAddr_of_pc_eq s a hpc]

/-! ## Calls one inside the other -/

theorem runInstrs_append (l m : List Instr) (s t : State) (h : runInstrs l s = .next t) :
    runInstrs (l ++ m) s = runInstrs m t := by
  induction l generalizing s with
  | nil =>
    obtain rfl : s = t := by simpa [runInstrs] using h
    rfl
  | cons i l ih =>
    cases hi : exec i s with
    | next u =>
      simp only [List.cons_append, runInstrs, hi] at h ⊢
      exact ih u h
    | fault r | refused r => simp [runInstrs, hi] at h

/-- Calls and as many returns, by induction on the calls: the outer call's return comes last. -/
theorem runInstrs_calls_returns (targets : List Addr12) (s : State) (hlimit : s.params.stackLimit = none)
    (hf : s.fault = none) :
    ∃ t, runInstrs (targets.map Instr.call ++ targets.map fun _ => Instr.ret) s = .next t ∧
      t.pc = s.pc ∧ t.stack = s.stack ∧ t.fault = none := by
  induction targets generalizing s with
  | nil => exact ⟨s, rfl, rfl, rfl, hf⟩
  | cons nnn targets ih =>
    have hcall := exec_call_of_not_full s nnn (by simp [hlimit])
    obtain ⟨t, hrun, _, hstack, hfault⟩ :=
      ih ((s.setStack (s.stack ++ [s.pc])).setPc (addrOperand nnn)) hlimit hf
    refine ⟨(t.setStack s.stack).setPc s.pc, ?_, rfl, rfl, hfault⟩
    have hlast : (nnn :: targets).map (fun _ => Instr.ret) = targets.map (fun _ => Instr.ret) ++ [.ret] := by
      rw [List.map_const', List.map_const', List.length_cons, List.replicate_succ']
    rw [hlast, List.map_cons, List.cons_append, ← List.append_assoc]
    simp only [runInstrs, hcall, runInstrs_append _ _ _ _ hrun, exec_ret_of_stack_append t s.stack s.pc hstack]

/-- Settles O7: the calls and returns restore the stack, on which one more return underflows if it is empty. -/
theorem nestedCallsAndReturnsRestorePc : Obligations.NestedCallsAndReturnsRestorePc := by
  intro s hlimit hf targets _
  obtain ⟨t, hrun, hpc, hstack, hfault⟩ := runInstrs_calls_returns targets s hlimit hf
  refine ⟨t, hrun, hpc, hstack, hfault, fun hempty => ?_⟩
  exact ⟨_, _, exec_ret_of_stack_nil t (hstack.trans hempty), State.raise_fault_of_none t hfault _ _ _, rfl⟩

end Sys2Proof
end

section
/-! The key skips EX9E and EXA1 (42_skips.md): one `keydown` request, and a skip by its answer. -/

namespace Sys2Proof

open Sys2Proof.Machine

/-! ## What a key skip does (R145 to R147) -/

theorem keyInRange_iff (k : Byte) : keyInRange k = true ↔ k.toNat ≤ 15 := decide_eq_true_iff

theorem keySkip_of_inRange (s : State) (i : Instr) (x : Reg) (c : Bool) (h : (s.readReg x).toNat ≤ 15) :
    s.keySkip i x c = (s.ask (.keydown (s.readReg x))).skipIf c := by
  rw [State.keySkip, if_pos ((keyInRange_iff _).mpr h)]

theorem keySkip_of_outOfRange (s : State) (i : Instr) (x : Reg) (c : Bool) (h : 15 < (s.readReg x).toNat) :
    s.keySkip i x c = s.raise .keyIndexOutOfRange (some (encode i)) s.fetchAddr := by
  rw [State.keySkip, if_neg (by rw [keyInRange_iff]; omega), State.raiseAtFetch]

/-- The frame of the request and the skip. -/
theorem ask_skipIf_unchangedBut (s : State) (e : Event) (c : Bool) :
    UnchangedBut [] [.pc, .events, .draws] s ((s.ask e).skipIf c) :=
  ((ask_unchangedBut s e).trans (skipIf_unchangedBut_pc _ c)).mono (by decide) (by decide)

theorem keySkip_fault_of_outOfRange (s : State) (i : Instr) (x : Reg) (c : Bool) (a : Word)
    (h : 15 < (s.readReg x).toNat) (hf : s.fault = none) (hpc : s.pc = a + 2) :
    (s.keySkip i x c).fault = some ⟨.keyIndexOutOfRange, ⟨some (encode i), a.toNat⟩⟩ ∧
      UnchangedBut [] [.fault] s (s.keySkip i x c) := by
  rw [keySkip_of_outOfRange s i x c h]
  refine ⟨?_, raise_unchangedBut_fault s _ _ _⟩
  rw [State.raise_fault_of_none s hf, fetchAddr_of_pc_eq s a hpc]

theorem exec_skp (x : Reg) (s : State) :
    exec (.skp x) s = .next (s.keySkip (.skp x) x (Config.keyDown s.draws)) := rfl

theorem exec_sknp (x : Reg) (s : State) :
    exec (.sknp x) s = .next (s.keySkip (.sknp x) x (!Config.keyDown s.draws)) := rfl

/-- Settles O12: the skip's condition is the port's answer. -/
theorem skpSkipsWhenKeyDown : Obligations.SkpSkipsWhenKeyDown := by
  refine ⟨fun w h => (decode_eq_instr_iff_encode _ _).mpr (formXsub_of_mask w h), fun s x hin => ?_,
    fun s x a hout hf hpc => ⟨_, exec_skp x s, keySkip_fault_of_outOfRange s _ x _ a hout hf hpc⟩⟩
  have hexec := exec_skp x s
  rw [keySkip_of_inRange s _ x _ hin] at hexec
  exact ⟨_, hexec, rfl, rfl, skipIf_pc_toNat _ _, ask_skipIf_unchangedBut s _ _⟩

/-- Settles O13: the skip's condition is the negation of the port's answer. -/
theorem sknpSkipsWhenKeyUp : Obligations.SknpSkipsWhenKeyUp := by
  refine ⟨fun w h => (decode_eq_instr_iff_encode _ _).mpr (formXsub_of_mask w h), fun s x hin => ?_,
    fun s x a hout hf hpc => ⟨_, exec_sknp x s, keySkip_fault_of_outOfRange s _ x _ a hout hf hpc⟩⟩
  have hexec := exec_sknp x s
  rw [keySkip_of_inRange s _ x _ hin] at hexec
  refine ⟨_, hexec, rfl, rfl, ?_, ask_skipIf_unchangedBut s _ _⟩
  rw [skipIf_pc_toNat]
  cases Config.keyDown s.draws <;> rfl

end Sys2Proof
end

section
/-! The two-register arithmetic and logic 8XY_ and the random byte CXNN (43_alu.md). -/

namespace Sys2Proof

open Sys2Proof.Machine

/-! ## 8XY0 to 8XY3 (R164 to R167) -/

theorem exec_ldReg (x y : Reg) (s : State) : exec (.ldReg x y) s = .next (s.writeReg x (s.readReg y)) := rfl

theorem exec_orReg (x y : Reg) (s : State) :
    exec (.orReg x y) s = .next (s.writeReg x (s.readReg x ||| s.readReg y)) := rfl

theorem exec_andReg (x y : Reg) (s : State) :
    exec (.andReg x y) s = .next (s.writeReg x (s.readReg x &&& s.readReg y)) := rfl

theorem exec_xorReg (x y : Reg) (s : State) :
    exec (.xorReg x y) s = .next (s.writeReg x (s.readReg x ^^^ s.readReg y)) := rfl

/-- Settles O16: each of the four is one write of VX, of a bitwise operation. -/
theorem copyAndLogicWriteVxOnly : Obligations.CopyAndLogicWriteVxOnly := by
  refine ⟨fun w => ⟨fun h => ?_, fun h => ?_, fun h => ?_, fun h => ?_⟩, fun s x y =>
    ⟨⟨_, exec_ldReg x y s, s.readReg_writeReg_self x _, writeReg_unchangedBut_reg s x _⟩,
      ⟨_, exec_orReg x y s, writeReg_unchangedBut_reg s x _, fun k => by
        rw [s.readReg_writeReg_self, BitVec.getLsbD_or]⟩,
      ⟨_, exec_andReg x y s, writeReg_unchangedBut_reg s x _, fun k => by
        rw [s.readReg_writeReg_self, BitVec.getLsbD_and]⟩,
      ⟨_, exec_xorReg x y s, writeReg_unchangedBut_reg s x _, fun k => by
        rw [s.readReg_writeReg_self, BitVec.getLsbD_xor]⟩⟩⟩
  all_goals exact (decode_eq_instr_iff_encode _ _).mpr (formRR_of_mask w h)

/-! ## The results and flags of the unit (R168 to R172) -/

theorem aluAdd_flag_toNat (a b : Byte) : (aluAdd a b).flag.toNat = (a.toNat + b.toNat) / 256 := by
  have ha := a.isLt
  have hb := b.isLt
  rw [aluAdd, BitVec.toNat_ofNat]
  omega

theorem aluSub_value_toNat (a b : Byte) : ((aluSub a b).value.toNat : Int) = (a.toNat - b.toNat : Int) % 256 := by
  have ha := a.isLt
  have hb := b.isLt
  rw [aluSub, BitVec.toNat_ofNat]
  omega

theorem aluShr_value_bit (b : Byte) (k : Nat) : (aluShr b).value.getLsbD k = b.getLsbD (k + 1) := by
  have hb := b.isLt
  have hvalue : (aluShr b).value = b >>> 1 := by
    apply BitVec.eq_of_toNat_eq
    rw [aluShr, BitVec.toNat_ofNat, BitVec.toNat_ushiftRight, Nat.shiftRight_eq_div_pow]
    omega
  rw [hvalue, BitVec.getLsbD_ushiftRight, Nat.add_comm]

theorem aluShr_flag (b : Byte) : (aluShr b).flag = if b.getLsbD 0 then 1 else 0 := by
  revert b; decide

theorem aluShl_value_toNat (b : Byte) : (aluShl b).value.toNat = b.toNat * 2 % 256 := by
  rw [aluShl, BitVec.toNat_ofNat]
  omega

theorem aluShl_flag (b : Byte) : (aluShl b).flag = if b.getLsbD 7 then 1 else 0 := by
  revert b; decide

/-! ## 8XY4 to 8XYE: the result, then the flag (R161) -/

theorem readReg_writeAlu_dest (s : State) (x : Reg) (r : AluOut) (hx : x ≠ 0xF) :
    (s.writeAlu x r).readReg x = r.value := by
  rw [State.readReg_writeAlu, if_neg (show x ≠ flagReg from hx), if_pos rfl]

theorem readReg_writeAlu_flag (s : State) (x : Reg) (r : AluOut) : (s.writeAlu x r).readReg 0xF = r.flag := by
  rw [State.readReg_writeAlu, if_pos (show (0xF : Reg) = flagReg from rfl)]

theorem exec_addReg (x y : Reg) (s : State) :
    exec (.addReg x y) s = .next (s.writeAlu x (aluAdd (s.readReg x) (s.readReg y))) := rfl

theorem exec_subReg (x y : Reg) (s : State) :
    exec (.subReg x y) s = .next (s.writeAlu x (aluSub (s.readReg x) (s.readReg y))) := rfl

theorem exec_shrReg (x y : Reg) (s : State) :
    exec (.shrReg x y) s = .next (s.writeAlu x (aluShr (s.readReg y))) := rfl

theorem exec_subnReg (x y : Reg) (s : State) :
    exec (.subnReg x y) s = .next (s.writeAlu x (aluSub (s.readReg y) (s.readReg x))) := rfl

theorem exec_shlReg (x y : Reg) (s : State) :
    exec (.shlReg x y) s = .next (s.writeAlu x (aluShl (s.readReg y))) := rfl

/-- Settles O17: the result is the sum modulo 256, the flag its carry. -/
theorem addRegAddsAndSetsCarry : Obligations.AddRegAddsAndSetsCarry := by
  refine ⟨fun w h => (decode_eq_instr_iff_encode _ _).mpr (formRR_of_mask w h), fun s x y =>
    ⟨_, exec_addReg x y s, fun hx => ?_, ?_, writeAlu_unchangedBut s x _⟩⟩
  · rw [readReg_writeAlu_dest s x _ hx, aluAdd_value_toNat]
  · rw [readReg_writeAlu_flag, aluAdd_flag_toNat]

/-- Settles O18: the result is the difference modulo 256, the flag 0 on borrow. -/
theorem subRegSubtractsAndSetsNotBorrow : Obligations.SubRegSubtractsAndSetsNotBorrow := by
  refine ⟨fun w h => (decode_eq_instr_iff_encode _ _).mpr (formRR_of_mask w h), fun s x y =>
    ⟨_, exec_subReg x y s, fun hx => ?_, readReg_writeAlu_flag s x _, writeAlu_unchangedBut s x _⟩⟩
  rw [readReg_writeAlu_dest s x _ hx, aluSub_value_toNat]

/-- Settles O19: the result is VY shifted right, the flag the bit shifted out. -/
theorem shrShiftsVyRightIntoVx : Obligations.ShrShiftsVyRightIntoVx := by
  refine ⟨fun w h => (decode_eq_instr_iff_encode _ _).mpr (formRR_of_mask w h), fun s x y =>
    ⟨_, exec_shrReg x y s, fun hx k => ?_, ?_, writeAlu_unchangedBut s x _⟩⟩
  · rw [readReg_writeAlu_dest s x _ hx, aluShr_value_bit]
  · rw [readReg_writeAlu_flag, aluShr_flag]

/-- Settles O20: as 8XY5 with the operands exchanged. -/
theorem subnSubtractsVxFromVy : Obligations.SubnSubtractsVxFromVy := by
  refine ⟨fun w h => (decode_eq_instr_iff_encode _ _).mpr (formRR_of_mask w h), fun s x y =>
    ⟨_, exec_subnReg x y s, fun hx => ?_, readReg_writeAlu_flag s x _, writeAlu_unchangedBut s x _⟩⟩
  rw [readReg_writeAlu_dest s x _ hx, aluSub_value_toNat]

/-- Settles O21: the result is VY doubled modulo 256, the flag its high bit. -/
theorem shlShiftsVyLeftIntoVx : Obligations.ShlShiftsVyLeftIntoVx := by
  refine ⟨fun w h => (decode_eq_instr_iff_encode _ _).mpr (formRR_of_mask w h), fun s x y =>
    ⟨_, exec_shlReg x y s, fun hx => ?_, ?_, writeAlu_unchangedBut s x _⟩⟩
  · rw [readReg_writeAlu_dest s x _ hx, aluShl_value_toNat]
  · rw [readReg_writeAlu_flag, aluShl_flag]

/-! ## CXNN (R173) -/

theorem exec_rnd (x : Reg) (nn : Byte) (s : State) :
    exec (.rnd x nn) s = .next (s.randomWith x nn (Config.randomByte s.draws)) := rfl

theorem readReg_randomWith_dest (s : State) (x : Reg) (nn b : Byte) :
    (s.randomWith x nn b).readReg x = b &&& nn := State.readReg_writeReg_self _ x _

theorem randomWith_unchangedBut (s : State) (x : Reg) (nn b : Byte) :
    UnchangedBut [x] [.events, .draws] s (s.randomWith x nn b) :=
  (ask_unchangedBut s .byte).trans (writeReg_unchangedBut_reg _ x _)

/-- Settles O22: one request, and one write of VX, of the masked answer. -/
theorem rndMasksTheDrawnByte : Obligations.RndMasksTheDrawnByte := by
  refine ⟨fun w h => (decode_eq_instr_iff_encode _ _).mpr (formImm_of_mask w h), fun s x nn =>
    ⟨_, exec_rnd x nn s, fun k => ?_, rfl, rfl, randomWith_unchangedBut s x nn _⟩⟩
  rw [readReg_randomWith_dest, BitVec.getLsbD_and]

end Sys2Proof
end

section
/-! The index addition FX1E and the block copies FX55 and FX65 (44_index_memory.md), with the slice write they rest on
(20_memory.md section 4). -/

namespace Sys2Proof

open Sys2Proof.Machine

/-! ## FX1E (R201) -/

theorem exec_addIndex (x : Reg) (s : State) :
    exec (.addIndex x) s = .next (s.setIndex (s.index + s.readRegWide x)) := rfl

/-- Settles O24: one write of I, of the 16-bit sum. -/
theorem addIndexWrapsAndTouchesNoFlag : Obligations.AddIndexWrapsAndTouchesNoFlag := by
  refine ⟨fun w h => (decode_eq_instr_iff_encode _ _).mpr (formXsub_of_mask w h), fun s x =>
    ⟨_, exec_addIndex x s, ?_, setIndex_unchangedBut_index s _⟩⟩
  rw [State.setIndex_index, BitVec.toNat_add, readRegWide_toNat]

/-! ## The slice write (R58, R59) -/

theorem memSliceWrite_of_inRange (s : State) (a : Nat) (bs : List Byte)
    (h : a + bs.length ≤ s.params.memSize.bytes) :
    s.memSliceWrite a bs = some { s with mem := Memory.writeList s.mem a bs } := by
  rcases s.memSliceWrite_cases a bs with ⟨_, e⟩ | ⟨hout, _⟩
  · exact e
  · omega

theorem memSliceWrite_of_outOfRange (s : State) (a : Nat) (bs : List Byte)
    (h : s.params.memSize.bytes < a + bs.length) : s.memSliceWrite a bs = none := by
  rcases s.memSliceWrite_cases a bs with ⟨hin, _⟩ | ⟨_, e⟩
  · omega
  · exact e

theorem read_writeList_inside (m : Memory) (hm : Memory.wf m) (a : Nat) (bs : List Byte) (k : Nat)
    (h : k < bs.length) : Memory.read (Memory.writeList m a bs) (a + k) = bs[k] := by
  rw [Memory.read_writeList m hm, if_pos (Nat.le_add_right a k), Nat.add_sub_cancel_left,
    List.getElem?_eq_getElem h, Option.getD_some]

theorem read_writeList_outside (m : Memory) (hm : Memory.wf m) (a : Nat) (bs : List Byte) (k : Nat)
    (h : k < a ∨ a + bs.length ≤ k) : Memory.read (Memory.writeList m a bs) k = Memory.read m k := by
  rw [Memory.read_writeList m hm]
  split_ifs with ha
  · rw [List.getElem?_eq_none (by omega), Option.getD_none]
  · rfl

/-- Settles O42: the bytes are written in order, all of them or none. -/
theorem memSliceWriteWritesExactlyItsBytes : Obligations.MemSliceWriteWritesExactlyItsBytes :=
  fun s a bs hm => ⟨fun hin =>
    ⟨_, memSliceWrite_of_inRange s a bs hin, read_writeList_inside s.mem hm a bs, read_writeList_outside s.mem hm a bs,
      Memory.wf_writeList s.mem hm a bs, setMem_unchangedBut s _⟩,
    memSliceWrite_of_outOfRange s a bs⟩

/-! ## FX55 (R202) -/

theorem exec_storeRegs_of_inRange (x : Reg) (s : State)
    (h : s.dataAddr + (x.toNat + 1) ≤ s.params.memSize.bytes) :
    exec (.storeRegs x) s = .next { s with mem := Memory.writeList s.mem s.dataAddr (s.regList x) } := by
  simp only [exec, execStoreRegs, memSliceWrite_of_inRange s s.dataAddr (s.regList x) (by simpa using h)]

theorem exec_storeRegs_of_outOfRange (x : Reg) (s : State)
    (h : s.params.memSize.bytes < s.dataAddr + (x.toNat + 1)) :
    exec (.storeRegs x) s = .next (s.raiseOutOfBounds (.storeRegs x) s.dataAddr) := by
  simp only [exec, execStoreRegs, memSliceWrite_of_outOfRange s s.dataAddr (s.regList x) (by simpa using h)]

/-- Byte `r` of the stored block is V[r]. -/
theorem read_writeList_regList (s : State) (x r : Reg) (hm : Memory.wf s.mem) (h : r.toNat ≤ x.toNat) :
    Memory.read (Memory.writeList s.mem s.dataAddr (s.regList x)) (s.dataAddr + r.toNat) = s.readReg r := by
  have hlen : r.toNat < (s.regList x).length := by rw [State.regList_length]; omega
  rw [read_writeList_inside s.mem hm _ _ _ hlen]
  exact Option.some.inj ((List.getElem?_eq_getElem hlen).symm.trans (s.regList_getElem? x r h))

/-- Settles O25: the store is the slice write of V0 to VX, or a fault before any byte. -/
theorem storeRegsCopiesRegistersToMemory : Obligations.StoreRegsCopiesRegistersToMemory := by
  refine ⟨fun w h => (decode_eq_instr_iff_encode _ _).mpr (formXsub_of_mask w h), fun s x hm hin => ?_,
    fun s x hf hout => ⟨_, exec_storeRegs_of_outOfRange x s hout, raiseOutOfBounds_fault s _ _ hf,
      raiseOutOfBounds_unchangedBut s _ _⟩⟩
  refine ⟨_, exec_storeRegs_of_inRange x s hin, fun r hr => read_writeList_regList s x r hm hr, fun k hk => ?_,
    setMem_unchangedBut s _⟩
  exact read_writeList_outside s.mem hm _ _ k (by rw [State.regList_length]; omega)

/-- Settles O43: the fetch reads the two bytes just stored. -/
theorem fetchSeesStoredBytes : Obligations.FetchSeesStoredBytes := by
  intro s t x r hm hexec hin hr hpc
  rw [exec_storeRegs_of_inRange x s hin] at hexec
  obtain rfl := Host.Outcome.next.inj hexec
  have hxlt := x.isLt
  have hsucc : (r + 1).toNat = r.toNat + 1 := by
    rw [BitVec.toNat_add]
    exact Nat.mod_eq_of_lt (show r.toNat + 1 < 16 by omega)
  have hlo := read_writeList_regList s x r hm (by omega)
  have hhi := read_writeList_regList s x (r + 1) hm (by omega)
  rw [hsucc, ← Nat.add_assoc] at hhi
  have hfetch : s.dataAddr + r.toNat + 2 ≤ s.params.memSize.bytes := by omega
  simp only [State.fetch, State.memRead16, State.inRange_iff, hpc, hfetch, if_true, hlo, hhi]

/-! ## FX65 (R203) -/

theorem exec_loadRegs_of_inRange (x : Reg) (s : State)
    (h : s.dataAddr + (x.toNat + 1) ≤ s.params.memSize.bytes) :
    exec (.loadRegs x) s = .next (s.loadRegList (Memory.readList s.mem s.dataAddr (x.toNat + 1))) := by
  simp only [exec, execLoadRegs, State.blockAt, memSlice_of_inRange s _ _ h]

theorem exec_loadRegs_of_outOfRange (x : Reg) (s : State)
    (h : s.params.memSize.bytes < s.dataAddr + (x.toNat + 1)) :
    exec (.loadRegs x) s = .next (s.raiseOutOfBounds (.loadRegs x) s.dataAddr) := by
  simp only [exec, execLoadRegs, State.blockAt, memSlice_of_outOfRange s _ _ h]

/-- Settles O26: the load is the slice at I into V0 to VX, or a fault before any register. -/
theorem loadRegsCopiesMemoryToRegisters : Obligations.LoadRegsCopiesMemoryToRegisters := by
  refine ⟨fun w h => (decode_eq_instr_iff_encode _ _).mpr (formXsub_of_mask w h), fun s x hin => ?_,
    fun s x hf hout => ⟨_, exec_loadRegs_of_outOfRange x s hout, raiseOutOfBounds_fault s _ _ hf,
      raiseOutOfBounds_unchangedBut s _ _⟩⟩
  refine ⟨_, exec_loadRegs_of_inRange x s hin, fun r => ?_, fun p => by cases p <;> simp [Part.same]⟩
  rw [State.readReg_loadRegList, Memory.readList_getElem?, State.dataAddr]
  by_cases hr : r.toNat ≤ x.toNat
  · rw [if_pos hr, if_pos (by omega), Option.getD_some]
  · rw [if_neg hr, if_neg (by omega), Option.getD_none]

end Sys2Proof
end

section
/-! The timer instructions FX07, FX15 and FX18 and the key wait FX0A (45_timers_input.md, 60_exceptions.md section 6). -/

namespace Sys2Proof

open Sys2Proof.Machine

/-! ## FX07, FX15, FX18 (R220 to R222) -/

theorem exec_ldFromDelay (x : Reg) (s : State) : exec (.ldFromDelay x) s = .next (s.writeReg x s.delay) := rfl

theorem exec_ldDelay (x : Reg) (s : State) : exec (.ldDelay x) s = .next (s.setDelay (s.readReg x)) := rfl

theorem exec_ldSound (x : Reg) (s : State) : exec (.ldSound x) s = .next (s.setSound (s.readReg x)) := rfl

/-- Settles O27: each of the three copies one byte. -/
theorem timerAccessCopiesOneByte : Obligations.TimerAccessCopiesOneByte := by
  refine ⟨fun w => ⟨fun h => ?_, fun h => ?_, fun h => ?_⟩, fun s x =>
    ⟨⟨_, exec_ldFromDelay x s, s.readReg_writeReg_self x _, writeReg_unchangedBut_reg s x _⟩,
      ⟨_, exec_ldDelay x s, rfl, setDelay_unchangedBut s _⟩,
      ⟨_, exec_ldSound x s, rfl, setSound_unchangedBut s _⟩⟩⟩
  all_goals exact (decode_eq_instr_iff_encode _ _).mpr (formXsub_of_mask w h)

/-! ## A wait that goes on, and one that ends (R263) -/

theorem poll_of_wait_zero (s : State) (p : Pending) (h : s.wait = some 0) : s.poll p = s.answer p := by
  simp [State.poll, h]

/-- A request not answered yet is polled by counting its wait down. -/
theorem poll_of_wait_ne_zero (s : State) (p : Pending) (h : s.wait ≠ some 0) :
    s.poll p = { s with wait := s.wait.map (· - 1) } := by
  rcases s.poll_cases p with ⟨hw, e⟩ | ⟨n, hw, e⟩ | ⟨hw, _⟩
  · rw [e, hw, Option.map_none, ← hw]
  · rw [e, hw, Option.map_some, Nat.add_sub_cancel]
  · exact absurd hw h

/-! ## The answer to a key request (R223) -/

theorem setPending_unchangedBut (s : State) (p : Option Pending) :
    UnchangedBut [] [.pending] s { s with pending := p } :=
  unchangedBut_of_regs_eq rfl (by simp [Part.forall_iff, Part.same])

theorem setHalt_unchangedBut (s : State) (b : Bool) : UnchangedBut [] [.halt] s { s with halt := b } :=
  unchangedBut_of_regs_eq rfl (by simp [Part.forall_iff, Part.same])

theorem answer_key_of_reply (s : State) (x : Reg) (k : Byte) (h : Config.keyReply s.draws = some k) :
    s.answer (.key x) = State.redraw { s.writeReg x k with pending := none } := by
  simp [State.answer, h, State.answerKey]

theorem answer_key_of_cancel (s : State) (x : Reg) (h : Config.keyReply s.draws = none) :
    s.answer (.key x) = State.redraw { s with halt := true, pending := none } := by
  simp [State.answer, h, State.answerKey]

/-- A key answered is written to its register, and ends the wait. -/
theorem answer_key_reply_unchangedBut (s : State) (x : Reg) (k : Byte) (h : Config.keyReply s.draws = some k) :
    UnchangedBut [x] [.pending, .draws, .wait] s (s.answer (.key x)) := by
  rw [answer_key_of_reply s x k h]
  exact ((writeReg_unchangedBut_reg s x k).trans (setPending_unchangedBut _ none)).trans (redraw_unchangedBut _)

theorem answer_key_reply_readReg (s : State) (x : Reg) (k : Byte) (h : Config.keyReply s.draws = some k) :
    (s.answer (.key x)).readReg x = k := by
  rw [answer_key_of_reply s x k h]
  exact s.readReg_writeReg_self x k

/-- A cancellation sets halt, and ends the wait. -/
theorem answer_key_cancel_unchangedBut (s : State) (x : Reg) (h : Config.keyReply s.draws = none) :
    UnchangedBut [] [.halt, .pending, .draws, .wait] s (s.answer (.key x)) := by
  rw [answer_key_of_cancel s x h]
  exact ((setHalt_unchangedBut s true).trans (setPending_unchangedBut _ none)).trans (redraw_unchangedBut _)

theorem answer_key_cancel_halt (s : State) (x : Reg) (h : Config.keyReply s.draws = none) :
    (s.answer (.key x)).halt = true := by
  rw [answer_key_of_cancel s x h]
  rfl

theorem answer_key_pending (s : State) (x : Reg) : (s.answer (.key x)).pending = none := by
  cases h : Config.keyReply s.draws with
  | some k => rw [answer_key_of_reply s x k h]; rfl
  | none => rw [answer_key_of_cancel s x h]; rfl

theorem answer_key_draws (s : State) (x : Reg) : (s.answer (.key x)).draws = s.draws + 1 := by
  cases h : Config.keyReply s.draws with
  | some k => rw [answer_key_of_reply s x k h]; rfl
  | none => rw [answer_key_of_cancel s x h]; rfl

theorem answer_key_events (s : State) (x : Reg) : (s.answer (.key x)).events = s.events := by
  cases h : Config.keyReply s.draws with
  | some k => exact (answer_key_reply_unchangedBut s x k h).2 .events (by decide)
  | none => exact (answer_key_cancel_unchangedBut s x h).2 .events (by decide)

/-! ## FX0A (R223) -/

theorem exec_waitKey (x : Reg) (s : State) :
    exec (.waitKey x) s = .next ((s.hold .key (.key x)).poll (.key x)) := rfl

/-- Settles O28: the request is sent and its answer taken in one step. -/
theorem waitKeyAnsweredWritesKeyOrHalts : Obligations.WaitKeyAnsweredWritesKeyOrHalts := by
  refine ⟨fun w h => (decode_eq_instr_iff_encode _ _).mpr (formXsub_of_mask w h), fun s x hw => ?_⟩
  have hexec := exec_waitKey x s
  rw [poll_of_wait_zero (s.hold .key (.key x)) _ hw] at hexec
  refine ⟨_, hexec, answer_key_events _ x, answer_key_pending _ x, answer_key_draws _ x, ?_⟩
  have hsent := hold_unchangedBut s .key (.key x)
  cases hreply : Config.keyReply s.draws with
  | some k =>
    exact ⟨answer_key_reply_readReg _ x k hreply,
      (hsent.trans (answer_key_reply_unchangedBut _ x k hreply)).mono (by simp) (by decide)⟩
  | none =>
    exact ⟨answer_key_cancel_halt _ x hreply,
      (hsent.trans (answer_key_cancel_unchangedBut _ x hreply)).mono (by decide) (by decide)⟩

/-! ## What a finished cycle does to its frame, case by case (R254, R255, R263) -/

theorem settleFrame_of_frame_none (s : State) (h : s.frame = none) : s.settleFrame = s := by
  simp [State.settleFrame, h]

theorem settleFrame_of_fault (s : State) (f : FrameRun) (hframe : s.frame = some f) (h : s.fault ≠ none) :
    s.settleFrame = { s with frame := none } := by
  simp [State.settleFrame, hframe, Option.isSome_iff_ne_none.mpr h]

theorem settleFrame_of_pending (s : State) (hf : s.fault = none) (h : s.pending ≠ none) : s.settleFrame = s := by
  cases hframe : s.frame <;> simp [State.settleFrame, hframe, hf, Option.isSome_iff_ne_none.mpr h]

theorem settleFrame_of_not_halted (s : State) (hf : s.fault = none) (h : s.halt = false) : s.settleFrame = s := by
  cases hframe : s.frame <;> simp [State.settleFrame, hframe, hf, h]

theorem settleFrame_of_halt_stopNow (s : State) (f : FrameRun) (hframe : s.frame = some f) (hf : s.fault = none)
    (hp : s.pending = none) (h : s.halt = true) (hpolicy : s.params.haltPolicy = .stopNow) :
    s.settleFrame = { s with frame := none, stop := some true } := by
  simp [State.settleFrame, hframe, hf, hp, h, hpolicy]

theorem settleFrame_of_halt_finishBatch (s : State) (f : FrameRun) (hframe : s.frame = some f) (hf : s.fault = none)
    (hp : s.pending = none) (h : s.halt = true) (hpolicy : s.params.haltPolicy = .finishBatch) :
    s.settleFrame = { s with frame := some { f with halted := true } } := by
  simp [State.settleFrame, hframe, hf, hp, h, hpolicy]

theorem setFrame_unchangedBut (s : State) (f : Option FrameRun) : UnchangedBut [] [.frame] s { s with frame := f } :=
  unchangedBut_of_regs_eq rfl (by simp [Part.forall_iff, Part.same])

theorem setStop_unchangedBut (s : State) (b : Option Bool) : UnchangedBut [] [.stop] s { s with stop := b } :=
  unchangedBut_of_regs_eq rfl (by simp [Part.forall_iff, Part.same])

/-! ## The held request (R263) -/

theorem step_of_pending (s : State) (p : Pending) (hf : s.fault = none) (hp : s.pending = some p) :
    step s = .next (s.poll p).settleFrame := by
  simp [step, blockStep, hf, hp]

/-- A step of a wait that goes on counts it down and does nothing else. -/
theorem step_of_waiting (s : State) (p : Pending) (hf : s.fault = none) (hp : s.pending = some p)
    (hw : s.wait ≠ some 0) : step s = .next { s with wait := s.wait.map (· - 1) } := by
  rw [step_of_pending s p hf hp, poll_of_wait_ne_zero s p hw,
    settleFrame_of_pending { s with wait := s.wait.map (· - 1) } hf (by simp [hp])]

/-- Settles O29: the request is held, the wait counted, and the answer settled in its frame. -/
theorem waitKeyHoldsUntilAnswered : Obligations.WaitKeyHoldsUntilAnswered := by
  refine ⟨fun s x hw => ?_, fun s p hf hp hw => ?_, fun s x hf hp hw hopen => ?_⟩
  · have hexec := exec_waitKey x s
    rw [poll_of_wait_ne_zero (s.hold .key (.key x)) _ hw] at hexec
    exact ⟨_, hexec, rfl, rfl, (hold_unchangedBut s .key (.key x)).trans (setWait_unchangedBut _ _)⟩
  · refine ⟨_, step_of_waiting s p hf hp hw, setWait_unchangedBut s _, fun h => ?_, fun n h => ?_⟩ <;> simp [h]
  · have hstep := step_of_pending s (.key x) hf hp
    rw [poll_of_wait_zero s _ hw] at hstep
    have hpending := answer_key_pending s x
    cases hreply : Config.keyReply s.draws with
    | some k =>
      have hframe := answer_key_reply_unchangedBut s x k hreply
      have hsettle : (s.answer (.key x)).settleFrame = s.answer (.key x) := by
        rcases hopen with h | h
        · exact settleFrame_of_frame_none _ ((hframe.2 .frame (by decide)).trans h)
        · exact settleFrame_of_not_halted _ ((hframe.2 .fault (by decide)).trans hf)
            ((hframe.2 .halt (by decide)).trans h)
      rw [hsettle] at hstep
      exact ⟨_, hstep, hpending, answer_key_reply_readReg s x k hreply, hframe⟩
    | none =>
      have hhalt := answer_key_cancel_halt s x hreply
      have hanswer := answer_key_cancel_unchangedBut s x hreply
      have hfault : (s.answer (.key x)).fault = none := (hanswer.2 .fault (by decide)).trans hf
      have hparams : (s.answer (.key x)).params = s.params := hanswer.2 .params (by decide)
      have hframe : (s.answer (.key x)).frame = s.frame := hanswer.2 .frame (by decide)
      cases hrun : s.frame with
      | none =>
        rw [settleFrame_of_frame_none _ (hframe.trans hrun)] at hstep
        exact ⟨_, hstep, hpending, hhalt, hanswer⟩
      | some f =>
        rw [hrun] at hframe
        cases hpolicy : s.params.haltPolicy with
        | stopNow =>
          rw [settleFrame_of_halt_stopNow _ f hframe hfault hpending hhalt (by rw [hparams, hpolicy])] at hstep
          exact ⟨_, hstep, hpending, hhalt, rfl, rfl,
            (hanswer.trans (setFrame_unchangedBut _ none)).trans (setStop_unchangedBut _ (some true))⟩
        | finishBatch =>
          rw [settleFrame_of_halt_finishBatch _ f hframe hfault hpending hhalt (by rw [hparams, hpolicy])] at hstep
          exact ⟨_, hstep, hpending, hhalt, rfl, hanswer.trans (setFrame_unchangedBut _ _)⟩

end Sys2Proof
end

section
/-! What an instruction can do, said once: the states that a meaning can answer, by the operation it ends in. The rules about
all instructions (60_exceptions.md section 1, 10_state.md, 20_memory.md section 5) are read off these cases. -/

namespace Sys2Proof

open Sys2Proof.Machine

/-! ## The cases -/

/-- The faults that an instruction can take, with what makes it take them (R242). -/
inductive Raises (s : State) : Instr → Cause → Prop where
  | ret : s.stack = [] → Raises s .ret .stackUnderflow
  | call (nnn : Addr12) : s.params.stackLimit = some s.stack.length → Raises s (.call nnn) .stackOverflow
  | drw (x y : Reg) (n : Nibble) : Raises s (.drw x y n) .outOfBoundsAccess
  | storeRegs (x : Reg) : Raises s (.storeRegs x) .outOfBoundsAccess
  | loadRegs (x : Reg) : Raises s (.loadRegs x) .outOfBoundsAccess
  | skp (x : Reg) : 15 < (s.readReg x).toNat → Raises s (.skp x) .keyIndexOutOfRange
  | sknp (x : Reg) : 15 < (s.readReg x).toNat → Raises s (.sknp x) .keyIndexOutOfRange

/-- The instructions that end in one write of the register they name, with that register. -/
inductive WritesOnly : Instr → Reg → Prop where
  | ldImm (x : Reg) (nn : Byte) : WritesOnly (.ldImm x nn) x
  | addImm (x : Reg) (nn : Byte) : WritesOnly (.addImm x nn) x
  | ldReg (x y : Reg) : WritesOnly (.ldReg x y) x
  | orReg (x y : Reg) : WritesOnly (.orReg x y) x
  | andReg (x y : Reg) : WritesOnly (.andReg x y) x
  | xorReg (x y : Reg) : WritesOnly (.xorReg x y) x
  | ldFromDelay (x : Reg) : WritesOnly (.ldFromDelay x) x

/-- The instructions that write a result and then the flag (R161). -/
inductive WritesAlu : Instr → Prop where
  | addReg (x y : Reg) : WritesAlu (.addReg x y)
  | subReg (x y : Reg) : WritesAlu (.subReg x y)
  | shrReg (x y : Reg) : WritesAlu (.shrReg x y)
  | subnReg (x y : Reg) : WritesAlu (.subnReg x y)
  | shlReg (x y : Reg) : WritesAlu (.shlReg x y)

/-- The instructions that write PC and nothing else. -/
inductive Branches : Instr → Prop where
  | jp (nnn : Addr12) : Branches (.jp nnn)
  | jpV0 (nnn : Addr12) : Branches (.jpV0 nnn)
  | seImm (x : Reg) (nn : Byte) : Branches (.seImm x nn)
  | sneImm (x : Reg) (nn : Byte) : Branches (.sneImm x nn)
  | seReg (x y : Reg) : Branches (.seReg x y)
  | sneReg (x y : Reg) : Branches (.sneReg x y)

/-- The states that an instruction's meaning can answer from `s`. -/
inductive Effect (s : State) : Instr → State → Prop where
  | send : Effect s .cls (s.send .clear)
  | pop (l : List Word) (v : Word) : s.stack = l ++ [v] → Effect s .ret ((s.setStack l).setPc v)
  | push (nnn : Addr12) : s.params.stackLimit ≠ some s.stack.length →
      Effect s (.call nnn) ((s.setStack (s.stack ++ [s.pc])).setPc (addrOperand nnn))
  | setPc (i : Instr) (v : Word) : Branches i → Effect s i (s.setPc v)
  | writeReg (i : Instr) (x : Reg) (b : Byte) : WritesOnly i x → Effect s i (s.writeReg x b)
  | writeAlu (i : Instr) (x : Reg) (r : AluOut) : WritesAlu i → Effect s i (s.writeAlu x r)
  | random (x : Reg) (nn b : Byte) : Effect s (.rnd x nn) (s.randomWith x nn b)
  | draw (x y : Reg) (n : Nibble) (sprite : List Byte) (c : Bool) : Effect s (.drw x y n) (s.drawWith x y sprite c)
  | keySkip (i : Instr) (x : Reg) (c : Bool) : i = .skp x ∨ i = .sknp x →
      Effect s i ((s.ask (.keydown (s.readReg x))).skipIf c)
  | setIndex (i : Instr) (v : Word) : ((∃ nnn, i = .ldIndex nnn) ∨ ∃ x, i = .addIndex x) → Effect s i (s.setIndex v)
  | setDelay (x : Reg) (v : Byte) : Effect s (.ldDelay x) (s.setDelay v)
  | setSound (x : Reg) (v : Byte) : Effect s (.ldSound x) (s.setSound v)
  | keyHeld (x : Reg) (w : Option Nat) : s.wait ≠ some 0 →
      Effect s (.waitKey x) { s.hold .key (.key x) with wait := w }
  | keyWritten (x : Reg) (k : Byte) : s.wait = some 0 → Config.keyReply s.draws = some k →
      Effect s (.waitKey x) (State.redraw { (s.hold .key (.key x)).writeReg x k with pending := none })
  | keyCancelled (x : Reg) : s.wait = some 0 → Config.keyReply s.draws = none →
      Effect s (.waitKey x) (State.redraw { s.hold .key (.key x) with halt := true, pending := none })
  | store (x : Reg) : s.dataAddr + (x.toNat + 1) ≤ s.params.memSize.bytes →
      Effect s (.storeRegs x) { s with mem := Memory.writeList s.mem s.dataAddr (s.regList x) }
  | load (x : Reg) : Effect s (.loadRegs x) (s.loadRegList (Memory.readList s.mem s.dataAddr (x.toNat + 1)))
  | raise (i : Instr) (c : Cause) (o : Option Word) (a : Nat) : Raises s i c → Effect s i (s.raise c o a)

/-! ## The meanings that have more than one case -/

theorem exec_ret_effect (s : State) : ∃ t, exec .ret s = .next t ∧ Effect s .ret t := by
  rcases List.eq_nil_or_concat' s.stack with h | ⟨l, v, h⟩
  · exact ⟨_, exec_ret_of_stack_nil s h, .raise _ _ _ _ (.ret h)⟩
  · exact ⟨_, exec_ret_of_stack_append s l v h, .pop l v h⟩

theorem exec_call_effect (s : State) (nnn : Addr12) :
    ∃ t, exec (.call nnn) s = .next t ∧ Effect s (.call nnn) t := by
  by_cases h : s.params.stackLimit = some s.stack.length
  · exact ⟨_, exec_call_of_full s nnn h, .raise _ _ _ _ (.call nnn h)⟩
  · exact ⟨_, exec_call_of_not_full s nnn h, .push nnn h⟩

theorem exec_drw_effect (s : State) (x y : Reg) (n : Nibble) :
    ∃ t, exec (.drw x y n) s = .next t ∧ Effect s (.drw x y n) t := by
  rcases Nat.lt_or_ge s.params.memSize.bytes (s.dataAddr + n.toNat) with h | h
  · exact ⟨_, exec_drw_of_outOfRange x y n s h, .raise _ _ _ _ (.drw x y n)⟩
  · exact ⟨_, exec_drw_of_inRange x y n s h, .draw x y n _ _⟩

theorem keySkip_effect (s : State) (i : Instr) (x : Reg) (c : Bool) (hi : i = .skp x ∨ i = .sknp x) :
    Effect s i (s.keySkip i x c) := by
  rcases Nat.lt_or_ge 15 (s.readReg x).toNat with h | h
  · rw [keySkip_of_outOfRange s i x c h]
    rcases hi with rfl | rfl
    · exact .raise _ _ _ _ (.skp x h)
    · exact .raise _ _ _ _ (.sknp x h)
  · rw [keySkip_of_inRange s i x c h]
    exact .keySkip i x c hi

theorem exec_waitKey_effect (s : State) (x : Reg) :
    ∃ t, exec (.waitKey x) s = .next t ∧ Effect s (.waitKey x) t := by
  refine ⟨_, exec_waitKey x s, ?_⟩
  by_cases hw : s.wait = some 0
  · rw [poll_of_wait_zero (s.hold .key (.key x)) _ hw]
    cases hreply : Config.keyReply s.draws with
    | some k =>
      rw [answer_key_of_reply (s.hold .key (.key x)) x k hreply]
      exact .keyWritten x k hw hreply
    | none =>
      rw [answer_key_of_cancel (s.hold .key (.key x)) x hreply]
      exact .keyCancelled x hw hreply
  · rw [poll_of_wait_ne_zero (s.hold .key (.key x)) _ hw]
    exact .keyHeld x _ hw

theorem exec_storeRegs_effect (s : State) (x : Reg) :
    ∃ t, exec (.storeRegs x) s = .next t ∧ Effect s (.storeRegs x) t := by
  rcases Nat.lt_or_ge s.params.memSize.bytes (s.dataAddr + (x.toNat + 1)) with h | h
  · exact ⟨_, exec_storeRegs_of_outOfRange x s h, .raise _ _ _ _ (.storeRegs x)⟩
  · exact ⟨_, exec_storeRegs_of_inRange x s h, .store x h⟩

theorem exec_loadRegs_effect (s : State) (x : Reg) :
    ∃ t, exec (.loadRegs x) s = .next t ∧ Effect s (.loadRegs x) t := by
  rcases Nat.lt_or_ge s.params.memSize.bytes (s.dataAddr + (x.toNat + 1)) with h | h
  · exact ⟨_, exec_loadRegs_of_outOfRange x s h, .raise _ _ _ _ (.loadRegs x)⟩
  · exact ⟨_, exec_loadRegs_of_inRange x s h, .load x⟩

/-! ## Every instruction -/

theorem exec_effect (i : Instr) (s : State) : ∃ t, exec i s = .next t ∧ Effect s i t := by
  cases i with
  | cls => exact ⟨_, exec_cls s, .send⟩
  | ret => exact exec_ret_effect s
  | call nnn => exact exec_call_effect s nnn
  | jp | jpV0 | seImm | sneImm | seReg | sneReg => exact ⟨_, rfl, .setPc _ _ (by constructor)⟩
  | ldImm | addImm | ldReg | orReg | andReg | xorReg | ldFromDelay => exact ⟨_, rfl, .writeReg _ _ _ (by constructor)⟩
  | addReg | subReg | shrReg | subnReg | shlReg => exact ⟨_, rfl, .writeAlu _ _ _ (by constructor)⟩
  | ldIndex nnn => exact ⟨_, exec_ldIndex nnn s, .setIndex _ _ (.inl ⟨nnn, rfl⟩)⟩
  | addIndex x => exact ⟨_, exec_addIndex x s, .setIndex _ _ (.inr ⟨x, rfl⟩)⟩
  | rnd x nn => exact ⟨_, exec_rnd x nn s, .random x nn _⟩
  | drw x y n => exact exec_drw_effect s x y n
  | skp x => exact ⟨_, exec_skp x s, keySkip_effect s _ x _ (.inl rfl)⟩
  | sknp x => exact ⟨_, exec_sknp x s, keySkip_effect s _ x _ (.inr rfl)⟩
  | ldDelay x => exact ⟨_, exec_ldDelay x s, .setDelay x _⟩
  | ldSound x => exact ⟨_, exec_ldSound x s, .setSound x _⟩
  | waitKey x => exact exec_waitKey_effect s x
  | storeRegs x => exact exec_storeRegs_effect s x
  | loadRegs x => exact exec_loadRegs_effect s x

theorem effect_of_exec (i : Instr) (s t : State) (h : exec i s = .next t) : Effect s i t := by
  obtain ⟨u, hu, heffect⟩ := exec_effect i s
  obtain rfl := Host.Outcome.next.inj (h.symm.trans hu)
  exact heffect

/-- Settles O46: none of the cases is a stop. -/
theorem everyInstructionAnswersANextState : Obligations.EveryInstructionAnswersANextState := by
  intro i s
  obtain ⟨t, ht, _⟩ := exec_effect i s
  exact ⟨t, ht⟩

/-! ## Faults (R242, R245) -/

/-- A meaning that leaves an unfaulted block with a mark is a raise. -/
theorem raises_of_fault (i : Instr) (s t : State) (h : Effect s i t) (hs : s.fault = none) (ht : t.fault ≠ none) :
    ∃ c o a, Raises s i c ∧ t = s.raise c o a := by
  cases h
  case raise c o a hraises => exact ⟨c, o, a, hraises, rfl⟩
  all_goals exact absurd hs ht

/-- Settles O44: the one case that sets the mark writes nothing else. -/
theorem faultsArePrecise : Obligations.FaultsArePrecise := by
  intro i s t hexec hs ht
  obtain ⟨c, o, a, _, rfl⟩ := raises_of_fault i s t (effect_of_exec i s t hexec) hs ht
  exact raise_unchangedBut_fault s c o a

/-- Settles O45: the causes are those of the raises. -/
theorem onlyTheListedInstructionsFault : Obligations.OnlyTheListedInstructionsFault := by
  intro i s t m hexec hs hm
  obtain ⟨c, o, a, hraises, rfl⟩ := raises_of_fault i s t (effect_of_exec i s t hexec) hs (by simp [hm])
  rw [State.raise_fault_of_none s hs] at hm
  obtain rfl := Option.some.inj hm
  cases hraises with
  | ret h => exact .inl ⟨rfl, rfl, h⟩
  | call nnn h => exact .inr (.inl ⟨nnn, rfl, rfl, by simp [h]⟩)
  | drw x y n => exact .inr (.inr (.inl ⟨⟨x, y, n, rfl⟩, rfl⟩))
  | storeRegs x => exact .inr (.inr (.inr (.inl ⟨⟨x, .inl rfl⟩, rfl⟩)))
  | loadRegs x => exact .inr (.inr (.inr (.inl ⟨⟨x, .inr rfl⟩, rfl⟩)))
  | skp x h => exact .inr (.inr (.inr (.inr ⟨x, .inl rfl, rfl, h⟩)))
  | sknp x h => exact .inr (.inr (.inr (.inr ⟨x, .inr rfl, rfl, h⟩)))

/-! ## Who writes what -/

section
variable {i : Instr} {s t : State}

theorem Effect.index (h : Effect s i t) :
    t.index = s.index ∨ (∃ nnn, i = .ldIndex nnn) ∨ ∃ x, i = .addIndex x := by
  cases h
  case setIndex v hi => exact .inr hi
  all_goals exact .inl rfl

theorem Effect.stack (h : Effect s i t) : t.stack = s.stack ∨ (∃ nnn, i = .call nnn) ∨ i = .ret := by
  cases h
  case pop => exact .inr (.inr rfl)
  case push nnn _ => exact .inr (.inl ⟨nnn, rfl⟩)
  all_goals exact .inl rfl

theorem Effect.delay (h : Effect s i t) : t.delay = s.delay ∨ ∃ x, i = .ldDelay x := by
  cases h
  case setDelay x v => exact .inr ⟨x, rfl⟩
  all_goals exact .inl rfl

theorem Effect.sound (h : Effect s i t) : t.sound = s.sound ∨ ∃ x, i = .ldSound x := by
  cases h
  case setSound x v => exact .inr ⟨x, rfl⟩
  all_goals exact .inl rfl

theorem Effect.mem (h : Effect s i t) : t.mem = s.mem ∨ ∃ x, i = .storeRegs x := by
  cases h
  case store x _ => exact .inr ⟨x, rfl⟩
  all_goals exact .inl rfl

theorem Effect.halt (h : Effect s i t) : t.halt = s.halt ∨ ∃ x, i = .waitKey x := by
  cases h
  case keyCancelled x _ _ => exact .inr ⟨x, rfl⟩
  all_goals exact .inl rfl

theorem Effect.outside (h : Effect s i t) :
    t.params = s.params ∧ t.calls = s.calls ∧ t.frame = s.frame ∧ t.stop = s.stop := by
  cases h <;> exact ⟨rfl, rfl, rfl, rfl⟩

/-- An instruction sends at most one request. -/
theorem Effect.events (h : Effect s i t) : ∃ new, t.events = s.events ++ new ∧ new.length ≤ 1 := by
  cases h
  case send | random | draw | keySkip | keyHeld | keyWritten | keyCancelled => exact ⟨_, rfl, Nat.le_refl 1⟩
  all_goals exact ⟨[], (List.append_nil _).symm, Nat.zero_le 1⟩

end

/-- Settles O52, part by part. -/
theorem specialStateHasOnlyItsWriters : Obligations.SpecialStateHasOnlyItsWriters := by
  intro i s t hexec
  have h := effect_of_exec i s t hexec
  exact ⟨h.index.resolve_left, h.stack.resolve_left, h.delay.resolve_left, h.sound.resolve_left,
    h.mem.resolve_left, h.outside⟩

/-! ## The flag register (R22, R23) -/

/-- A register whose value changed is one of those that may. -/
theorem mem_of_readReg_ne {rs : List Reg} {ps : List Part} {s t : State} {r : Reg} (h : UnchangedBut rs ps s t)
    (hr : t.readReg r ≠ s.readReg r) : r ∈ rs :=
  Classical.byContradiction fun hmem => hr (h.1 r hmem)

theorem eq_of_readReg_ne {ps : List Part} {s t : State} {r x : Reg} (h : UnchangedBut [x] ps s t)
    (hr : t.readReg r ≠ s.readReg r) : x = r :=
  (List.mem_singleton.mp (mem_of_readReg_ne h hr)).symm

theorem readReg_F_of_load (s : State) (x : Reg) (m : Memory) (a : Nat)
    (h : (s.loadRegList (Memory.readList m a (x.toNat + 1))).readReg 0xF ≠ s.readReg 0xF) : x = 0xF := by
  rw [State.readReg_loadRegList, Memory.readList_getElem?] at h
  split_ifs at h with hx
  · have hlt := x.isLt
    exact BitVec.eq_of_toNat_eq (Nat.le_antisymm (Nat.le_of_lt_succ hlt) (Nat.le_of_lt_succ hx))
  · exact absurd rfl h

/-- Settles O54, by the case of the instruction: each writes VF as its flag or as the register it names. -/
theorem flagRegisterHasOnlyItsWriters : Obligations.FlagRegisterHasOnlyItsWriters := by
  intro i s t hexec hne
  cases effect_of_exec i s t hexec
  case writeReg x b hi =>
    obtain rfl := eq_of_readReg_ne (writeReg_unchangedBut_reg s x b) hne
    right
    cases hi <;> simp
  case writeAlu x r hi =>
    left
    cases hi <;> simp
  case draw x y n sprite c => exact .inl ⟨x, y, n, .inl rfl⟩
  case random x nn b =>
    obtain rfl := eq_of_readReg_ne (randomWith_unchangedBut s x nn b) hne
    exact .inr ⟨0, nn, by simp⟩
  case keyWritten x k _ _ =>
    obtain rfl := eq_of_readReg_ne (writeReg_unchangedBut_reg s x k) hne
    exact .inr ⟨0, 0, by simp⟩
  case load x =>
    obtain rfl := readReg_F_of_load s x _ _ hne
    exact .inr ⟨0, 0, by simp⟩
  all_goals exact absurd rfl hne

/-! ## The call stack and ST are hidden (10_state.md sections 4 and 5) -/

/-- A state with another call stack and another ST. -/
def withHidden (l : List Word) (v : Byte) (s : State) : State := { s with stack := l, sound := v }

theorem keySkip_withHidden (l : List Word) (v : Byte) (s : State) (i : Instr) (x : Reg) (c : Bool) :
    (withHidden l v s).keySkip i x c = withHidden l v (s.keySkip i x c) := by
  rcases Nat.lt_or_ge 15 (s.readReg x).toNat with h | h
  · rw [keySkip_of_outOfRange s i x c h, keySkip_of_outOfRange (withHidden l v s) i x c h]; rfl
  · rw [keySkip_of_inRange s i x c h, keySkip_of_inRange (withHidden l v s) i x c h]; rfl

theorem poll_key_withHidden (l : List Word) (v : Byte) (s : State) (x : Reg) :
    (withHidden l v s).poll (.key x) = withHidden l v (s.poll (.key x)) := by
  by_cases hw : s.wait = some 0
  · rw [poll_of_wait_zero s _ hw, poll_of_wait_zero (withHidden l v s) _ hw]
    cases hreply : Config.keyReply s.draws with
    | some k => rw [answer_key_of_reply s x k hreply, answer_key_of_reply (withHidden l v s) x k hreply]; rfl
    | none => rw [answer_key_of_cancel s x hreply, answer_key_of_cancel (withHidden l v s) x hreply]; rfl
  · rw [poll_of_wait_ne_zero s _ hw, poll_of_wait_ne_zero (withHidden l v s) _ hw]; rfl

theorem exec_storeRegs_withHidden (l : List Word) (v : Byte) (s : State) (x : Reg) :
    exec (.storeRegs x) (withHidden l v s) = mapNext (withHidden l v) (exec (.storeRegs x) s) := by
  rcases Nat.lt_or_ge s.params.memSize.bytes (s.dataAddr + (x.toNat + 1)) with h | h
  · rw [exec_storeRegs_of_outOfRange x s h, exec_storeRegs_of_outOfRange x (withHidden l v s) h]; rfl
  · rw [exec_storeRegs_of_inRange x s h, exec_storeRegs_of_inRange x (withHidden l v s) h]; rfl

/-- Every instruction but CALL, RET and FX18 commutes with a change of the stack and of ST. -/
theorem exec_withHidden (l : List Word) (v : Byte) (i : Instr) (s : State) (hcall : ∀ nnn, i ≠ .call nnn)
    (hret : i ≠ .ret) (hsound : ∀ x, i ≠ .ldSound x) :
    exec i (withHidden l v s) = mapNext (withHidden l v) (exec i s) := by
  cases i
  case call nnn => exact absurd rfl (hcall nnn)
  case ret => exact absurd rfl hret
  case ldSound x => exact absurd rfl (hsound x)
  case drw x y n =>
    have hsprite : (withHidden l v s).sprite n = s.sprite n := rfl
    simp only [exec, execDrw, hsprite]
    cases s.sprite n <;> rfl
  case loadRegs x =>
    have hblock : (withHidden l v s).blockAt x = s.blockAt x := rfl
    simp only [exec, execLoadRegs, hblock]
    cases s.blockAt x <;> rfl
  case storeRegs x => exact exec_storeRegs_withHidden l v s x
  case skp x => exact congrArg Host.Outcome.next (keySkip_withHidden l v s _ x _)
  case sknp x => exact congrArg Host.Outcome.next (keySkip_withHidden l v s _ x _)
  case waitKey x => exact congrArg Host.Outcome.next (poll_key_withHidden l v (s.hold .key (.key x)) x)
  all_goals rfl

/-- Where an instruction commutes with a change of both, and keeps one of the two, it commutes with a change of the other. -/
theorem exec_setStack (l : List Word) (i : Instr) (s : State) (hcall : ∀ nnn, i ≠ .call nnn) (hret : i ≠ .ret) :
    exec i (s.setStack l) = mapNext (fun t => t.setStack l) (exec i s) := by
  by_cases hi : ∃ x, i = .ldSound x
  · obtain ⟨x, rfl⟩ := hi
    rfl
  · obtain ⟨t, ht, heffect⟩ := exec_effect i s
    have hkept : withHidden l s.sound t = t.setStack l := by
      rw [← heffect.sound.resolve_right hi]; rfl
    calc exec i (s.setStack l) = mapNext (withHidden l s.sound) (exec i s) :=
          exec_withHidden l s.sound i s hcall hret fun x hx => hi ⟨x, hx⟩
      _ = mapNext (fun t => t.setStack l) (exec i s) := by rw [ht, mapNext_next, mapNext_next, hkept]

theorem exec_call_setSound (v : Byte) (nnn : Addr12) (s : State) :
    exec (.call nnn) (s.setSound v) = mapNext (fun t => t.setSound v) (exec (.call nnn) s) := by
  by_cases h : s.params.stackLimit = some s.stack.length
  · rw [exec_call_of_full s nnn h, exec_call_of_full (s.setSound v) nnn h]; rfl
  · rw [exec_call_of_not_full s nnn h, exec_call_of_not_full (s.setSound v) nnn h]; rfl

theorem exec_ret_setSound (v : Byte) (s : State) :
    exec .ret (s.setSound v) = mapNext (fun t => t.setSound v) (exec .ret s) := by
  rcases List.eq_nil_or_concat' s.stack with h | ⟨l, a, h⟩
  · rw [exec_ret_of_stack_nil s h, exec_ret_of_stack_nil (s.setSound v) h]; rfl
  · rw [exec_ret_of_stack_append s l a h, exec_ret_of_stack_append (s.setSound v) l a h]; rfl

theorem exec_setSound (v : Byte) (i : Instr) (s : State) (hsound : ∀ x, i ≠ .ldSound x) :
    exec i (s.setSound v) = mapNext (fun t => t.setSound v) (exec i s) := by
  by_cases hi : (∃ nnn, i = .call nnn) ∨ i = .ret
  · rcases hi with ⟨nnn, rfl⟩ | rfl
    · exact exec_call_setSound v nnn s
    · exact exec_ret_setSound v s
  · obtain ⟨t, ht, heffect⟩ := exec_effect i s
    have hkept : withHidden s.stack v t = t.setSound v := by
      rw [← heffect.stack.resolve_right hi]; rfl
    calc exec i (s.setSound v) = mapNext (withHidden s.stack v) (exec i s) :=
          exec_withHidden s.stack v i s (fun nnn hn => hi (.inl ⟨nnn, hn⟩)) (fun hr => hi (.inr hr)) hsound
      _ = mapNext (fun t => t.setSound v) (exec i s) := by rw [ht, mapNext_next, mapNext_next, hkept]

/-- Settles O53: each of the two commutes with every instruction that is not its own. -/
theorem stackAndSoundTimerAreHidden : Obligations.StackAndSoundTimerAreHidden :=
  ⟨fun i s l => exec_setStack l i s, fun i s v => exec_setSound v i s⟩

end Sys2Proof
end

section
/-! What a step can do, said once: the states it can answer, by the kind of the step and, for a cycle, by the case of its
instruction. The rules about whole steps (20_memory.md section 5, 60_exceptions.md) are read off these cases. -/

namespace Sys2Proof

open Sys2Proof.Machine

/-! ## The cases -/

/-- The states that a step can answer from `s`. -/
inductive StepEffect (s : State) : State → Prop where
  | reset (cs : List HostCall) : s.Makes .reset cs → StepEffect s (State.hostReset { s with calls := cs })
  | load (a : Nat) (bs : List Byte) (cs : List HostCall) : s.Makes (.load a bs) cs →
      StepEffect s (State.hostLoad { s with calls := cs } a bs)
  | frame (n : Nat) (cs : List HostCall) : s.Makes (.frame n) cs → s.fault = none →
      StepEffect s (State.startFrame { s with calls := cs } n)
  | wait (p : Pending) : s.fault = none → s.pending = some p → StepEffect s (s.poll p).settleFrame
  | finish (f : FrameRun) : s.fault = none → s.pending = none → s.frame = some f → f.left = 0 →
      StepEffect s s.finishFrame
  | fetchFault : s.Ready → StepEffect s (s.beginCycle.raise .outOfBoundsAccess none s.pc.toNat).settleFrame
  | illegal (w : Word) : s.Ready →
      StepEffect s (s.atDispatch.raise .unsupportedInstruction (some w) s.pc.toNat).settleFrame
  | run (w : Word) (i : Instr) (t : State) : s.Ready → s.fetch = some w → decode w = .instr i →
      Effect s.atDispatch i t → StepEffect s t.settleFrame

theorem stepEffect_of_makes (s t : State) (c : HostCall) (cs : List HostCall) (hmakes : s.Makes c cs)
    (h : step s = .next t) : StepEffect s t := by
  rw [step_of_makes s c cs hmakes] at h
  rcases State.hostCall_cases { s with calls := cs } c with ⟨rfl, e⟩ | ⟨a, bs, rfl, e⟩ | ⟨n, rfl, hf, e⟩ | ⟨n, _, _, e⟩
  · obtain rfl := Host.Outcome.next.inj (e.symm.trans h)
    exact .reset cs hmakes
  · obtain rfl := Host.Outcome.next.inj (e.symm.trans h)
    exact .load a bs cs hmakes
  · obtain rfl := Host.Outcome.next.inj (e.symm.trans h)
    exact .frame n cs hmakes hf
  · exact absurd (e.symm.trans h) (by simp)

theorem stepEffect_of_ready (s t : State) (hready : s.Ready) (h : step s = .next t) : StepEffect s t := by
  rw [step_of_ready s hready] at h
  obtain ⟨u, hcycle, rfl⟩ := mapNext_eq_next h
  rcases cycle_cases s.beginCycle with ⟨_, e⟩ | ⟨w, _, _, e⟩ | ⟨w, i, hfetch, hdecode, e⟩
  · obtain rfl := Host.Outcome.next.inj (e.symm.trans hcycle)
    exact .fetchFault hready
  · obtain rfl := Host.Outcome.next.inj (e.symm.trans hcycle)
    exact .illegal w hready
  · exact .run w i u hready hfetch hdecode (effect_of_exec i _ u (e.symm.trans hcycle))

theorem stepEffect_of_step (s t : State) (h : step s = .next t) : StepEffect s t := by
  rcases step_cases s with ⟨m, _, _, e⟩ | ⟨c, cs, hmakes, _⟩ | ⟨p, hf, hp, e⟩ | ⟨f, hf, hp, hframe, hleft, e⟩ |
    ⟨hready, _⟩
  · exact absurd (e.symm.trans h) (by simp)
  · exact stepEffect_of_makes s t c cs hmakes h
  · obtain rfl := Host.Outcome.next.inj (e.symm.trans h)
    exact .wait p hf hp
  · obtain rfl := Host.Outcome.next.inj (e.symm.trans h)
    exact .finish f hf hp hframe hleft
  · exact stepEffect_of_ready s t hready h

/-! ## What the settling of a frame and a wait can write -/

theorem settleFrame_eq (s : State) : ∃ f b, s.settleFrame = { s with frame := f, stop := b } := by
  rcases s.settleFrame_cases with h | ⟨_, _, _, h⟩ | ⟨_, _, _, _, _, _, h⟩ | ⟨_, _, _, _, _, _, h⟩ <;>
    exact ⟨_, _, h⟩

theorem poll_eq (s : State) (p : Pending) : ∃ v halt f b q d w, s.poll p =
    { s with regs := v, halt := halt, frame := f, stop := b, pending := q, draws := d, wait := w } := by
  rcases s.poll_cases p with ⟨_, e⟩ | ⟨n, _, e⟩ | ⟨_, e⟩
  · exact ⟨_, _, _, _, _, _, _, e⟩
  · exact ⟨_, _, _, _, _, _, _, e⟩
  · cases p with
    | pump => exact ⟨_, _, _, _, _, _, _, e⟩
    | key x =>
      cases hreply : Config.keyReply s.draws with
      | some k => exact ⟨_, _, _, _, _, _, _, e.trans (answer_key_of_reply s x k hreply)⟩
      | none => exact ⟨_, _, _, _, _, _, _, e.trans (answer_key_of_cancel s x hreply)⟩

section
variable (s : State) (p : Pending)

@[simp] theorem settleFrame_mem : s.settleFrame.mem = s.mem := by obtain ⟨_, _, h⟩ := settleFrame_eq s; rw [h]
@[simp] theorem settleFrame_params : s.settleFrame.params = s.params := by
  obtain ⟨_, _, h⟩ := settleFrame_eq s; rw [h]
@[simp] theorem settleFrame_delay : s.settleFrame.delay = s.delay := by obtain ⟨_, _, h⟩ := settleFrame_eq s; rw [h]
@[simp] theorem settleFrame_events : s.settleFrame.events = s.events := by
  obtain ⟨_, _, h⟩ := settleFrame_eq s; rw [h]

@[simp] theorem poll_mem : (s.poll p).mem = s.mem := by obtain ⟨_, _, _, _, _, _, _, h⟩ := poll_eq s p; rw [h]
@[simp] theorem poll_params : (s.poll p).params = s.params := by
  obtain ⟨_, _, _, _, _, _, _, h⟩ := poll_eq s p; rw [h]
@[simp] theorem poll_delay : (s.poll p).delay = s.delay := by obtain ⟨_, _, _, _, _, _, _, h⟩ := poll_eq s p; rw [h]
@[simp] theorem poll_events : (s.poll p).events = s.events := by
  obtain ⟨_, _, _, _, _, _, _, h⟩ := poll_eq s p; rw [h]

@[simp] theorem finishFrame_mem : s.finishFrame.mem = s.mem := poll_mem _ _
@[simp] theorem finishFrame_params : s.finishFrame.params = s.params := poll_params _ _
@[simp] theorem finishFrame_delay : s.finishFrame.delay = s.delay := poll_delay _ _
theorem finishFrame_events : s.finishFrame.events = s.events ++ [.present, .pump] := by simp [State.finishFrame]

end

theorem hostLoad_eq (s : State) (a : Nat) (bs : List Byte) :
    ∃ m f, s.hostLoad a bs = { s with mem := m, fault := f } := by
  rcases s.hostLoad_cases a bs with ⟨_, e⟩ | ⟨_, e⟩ <;> exact ⟨_, _, e⟩

/-! ## Memory, DT and the history over whole steps -/

theorem StepEffect.params {s t : State} (h : StepEffect s t) : t.params = s.params := by
  cases h with
  | reset cs _ => rfl
  | load a bs cs _ => obtain ⟨_, _, e⟩ := hostLoad_eq { s with calls := cs } a bs; rw [e]
  | frame n cs _ _ => rfl
  | run w i u _ _ _ heffect => exact (settleFrame_params u).trans heffect.outside.1
  | wait | finish | fetchFault | illegal => simp [State.atDispatch]

theorem StepEffect.mem {s t : State} (h : StepEffect s t) (hne : t.mem ≠ s.mem) :
    (s.Ready ∧ ∃ w x, s.fetch = some w ∧ decode w = .instr (.storeRegs x)) ∨
    (∃ a bs cs, s.Makes (.load a bs) cs ∧ t.calls = cs) ∨ ∃ cs, s.Makes .reset cs ∧ t.calls = cs := by
  cases h with
  | reset cs hmakes => exact .inr (.inr ⟨cs, hmakes, rfl⟩)
  | load a bs cs hmakes =>
    obtain ⟨_, _, e⟩ := hostLoad_eq { s with calls := cs } a bs
    exact .inr (.inl ⟨a, bs, cs, hmakes, by rw [e]⟩)
  | run w i u hready hfetch hdecode heffect =>
    rw [settleFrame_mem] at hne
    obtain ⟨x, rfl⟩ := heffect.mem.resolve_left hne
    exact .inl ⟨hready, w, x, hfetch, hdecode⟩
  | frame | wait | finish | fetchFault | illegal => exact absurd (by simp [State.atDispatch]) hne

/-- Settles O55: the cases of a step that write memory. -/
theorem memoryChangesOnlyByStoreLoadOrReset : Obligations.MemoryChangesOnlyByStoreLoadOrReset := by
  intro s t h
  have heffect := stepEffect_of_step s t h
  exact ⟨heffect.params, heffect.mem⟩

theorem StepEffect.delay {s t : State} (h : StepEffect s t) (hne : t.delay ≠ s.delay) :
    (∃ n cs, s.Makes (.frame n) cs ∧ t.calls = cs) ∨ (∃ cs, s.Makes .reset cs ∧ t.calls = cs) ∨
    (s.Ready ∧ ∃ w x, s.fetch = some w ∧ decode w = .instr (.ldDelay x)) := by
  cases h with
  | reset cs hmakes => exact .inr (.inl ⟨cs, hmakes, rfl⟩)
  | frame n cs hmakes _ => exact .inl ⟨n, cs, hmakes, rfl⟩
  | load a bs cs _ =>
    obtain ⟨_, _, e⟩ := hostLoad_eq { s with calls := cs } a bs
    exact absurd (by rw [e]) hne
  | run w i u hready hfetch hdecode heffect =>
    rw [settleFrame_delay] at hne
    obtain ⟨x, rfl⟩ := heffect.delay.resolve_left hne
    exact .inr (.inr ⟨hready, w, x, hfetch, hdecode⟩)
  | wait | finish | fetchFault | illegal => exact absurd (by simp [State.atDispatch]) hne

/-- Settles O57: the frame's start counts DT down, and the cases of a step that write it are the three named. -/
theorem delayTimerCountsFrames : Obligations.DelayTimerCountsFrames :=
  ⟨fun s n cs hf hp hframe hcalls =>
    ⟨_, step_of_frame_call s n cs hf hp hframe hcalls, countDown_toNat s.delay, rfl⟩,
    fun s t h => (stepEffect_of_step s t h).delay⟩

theorem StepEffect.events {s t : State} (h : StepEffect s t) :
    ∃ new, t.events = s.events ++ new ∧ new.length ≤ 2 := by
  cases h with
  | frame n cs _ _ => exact ⟨_, rfl, Nat.le_succ 1⟩
  | finish f _ _ _ _ => exact ⟨_, finishFrame_events s, Nat.le_refl 2⟩
  | run w i u _ _ _ heffect =>
    obtain ⟨new, hnew, hlength⟩ := heffect.events
    exact ⟨new, (settleFrame_events u).trans hnew, Nat.le_succ_of_le hlength⟩
  | load a bs cs _ =>
    obtain ⟨_, _, e⟩ := hostLoad_eq { s with calls := cs } a bs
    exact ⟨[], by rw [e, List.append_nil], Nat.zero_le 2⟩
  | reset cs _ => exact ⟨[], (List.append_nil _).symm, Nat.zero_le 2⟩
  | wait | fetchFault | illegal => exact ⟨[], by simp [State.atDispatch], Nat.zero_le 2⟩

/-- Settles O56: a step appends, two requests at the end of a frame and one at most otherwise. -/
theorem requestHistoryOnlyGrows : Obligations.RequestHistoryOnlyGrows :=
  fun s t h => (stepEffect_of_step s t h).events

end Sys2Proof
end

section
/-! The machine's invariant (`State.Inv`): it holds at reset, and every case of a step keeps it. A cycle is followed by the
settling of its frame, and the invariant is carried over the two in a form that lets a fault stand beside the frame. -/

namespace Sys2Proof

open Sys2Proof.Machine

/-! ## At reset -/

theorem inv_resetWith (p : Params) (hp : p.wellFormed = true) : (State.resetWith p).Inv where
  memWf := ⟨List.Pairwise.nil, by simp [State.resetWith]⟩
  memBelow := by simp [Memory.below, State.resetWith]
  paramsOk := hp
  stackBound := fun k _ => Nat.zero_le k
  faultIdle := fun h => absurd rfl h
  pumpAtEnd := nofun
  keyOpen := nofun
  frameOpen := fun h => absurd rfl h
  stopNow := nofun

/-- Settles O49: the construction state has it, for the default parameters as for any allowed. -/
theorem invariantHoldsAtReset : Obligations.InvariantHoldsAtReset := ⟨inv_resetWith _ rfl, inv_resetWith⟩

/-! ## Between a cycle and the settling of its frame -/

/-- The invariant as a cycle leaves it: that of the state without its mark, and beside a mark no held request. -/
structure CycleInv (s : State) : Prop where
  unmarked : State.Inv { s with fault := none }
  markIdle : s.fault ≠ none → s.pending = none

theorem cycleInv_of_inv {s : State} (h : s.Inv) : CycleInv s where
  unmarked := { h with faultIdle := fun hn => absurd rfl hn }
  markIdle := fun hf => (h.faultIdle hf).2

theorem inv_of_cycleInv {s : State} (h : CycleInv s) (hidle : s.fault ≠ none → s.frame = none) : s.Inv :=
  { h.unmarked with faultIdle := fun hf => ⟨hidle hf, h.markIdle hf⟩ }

/-- A frame that is over: what it returns is free. -/
theorem inv_endFrame {s : State} (h : CycleInv s) (hp : s.pending = none) (b : Option Bool) :
    State.Inv { s with frame := none, stop := b } :=
  { h.unmarked with
    faultIdle := fun _ => ⟨rfl, hp⟩
    pumpAtEnd := fun hpump => by simp [hp] at hpump
    frameOpen := fun hn => absurd rfl hn
    stopNow := nofun }

theorem inv_settleFrame {s : State} (h : CycleInv s) : s.settleFrame.Inv := by
  cases hframe : s.frame with
  | none =>
    rw [settleFrame_of_frame_none s hframe]
    exact inv_of_cycleInv h fun _ => hframe
  | some f =>
    by_cases hf : s.fault = none
    · rcases s.settleFrame_cases with e | ⟨_, _, hne, _⟩ | ⟨_, _, _, hp, _, _, e⟩ | ⟨g, hg, _, hp, _, hpolicy, e⟩
      · rw [e]
        exact inv_of_cycleInv h fun hne => absurd hf hne
      · exact absurd hf hne
      · rw [e]
        exact inv_endFrame h hp _
      · rw [e]
        exact { h.unmarked with
          faultIdle := fun hne => absurd hf hne
          pumpAtEnd := fun hpump => by simp [hp] at hpump
          frameOpen := fun _ => h.unmarked.frameOpen (by simp [hg])
          stopNow := fun hnow => by simp [hpolicy] at hnow }
    · rw [settleFrame_of_fault s f hframe hf]
      exact inv_endFrame h (h.markIdle hf) _

/-! ## The cases of a step -/

/-- The state at dispatch, from a ready block. -/
theorem inv_beginCycle {s : State} (h : s.Inv) (hp : s.pending = none) : s.beginCycle.Inv :=
  { h with
    faultIdle := fun hf => ⟨by simp [(h.faultIdle hf).1], hp⟩
    pumpAtEnd := fun hpump => by simp [hp] at hpump
    keyOpen := fun _ _ => rfl
    frameOpen := fun hn => h.frameOpen fun hframe => hn (by simp [hframe])
    stopNow := fun hnow f hf => by
      obtain ⟨g, hg, rfl⟩ := Option.map_eq_some_iff.mp hf
      exact h.stopNow hnow g hg }

theorem inv_setMem {s : State} (h : s.Inv) (a : Nat) (bs : List Byte) (hin : a + bs.length ≤ s.params.memSize.bytes) :
    State.Inv { s with mem := Memory.writeList s.mem a bs } :=
  { h with
    memWf := Memory.wf_writeList s.mem h.memWf a bs
    memBelow := Memory.below_writeList s.mem _ a bs h.memBelow hin }

/-- A fault taken in a cycle stands beside its frame, and beside no held request. -/
theorem cycleInv_raise {s : State} (h : s.Inv) (hp : s.pending = none) (c : Cause) (o : Option Word) (a : Nat) :
    CycleInv (s.raise c o a) where
  unmarked := { h with faultIdle := fun hn => absurd rfl hn }
  markIdle := fun _ => hp

/-- An instruction run from a state of the invariant, the halt result clear and no request held. -/
theorem cycleInv_of_effect {i : Instr} {s t : State} (h : s.Inv) (hf : s.fault = none) (hp : s.pending = none)
    (hhalt : s.halt = false) (heffect : Effect s i t) : CycleInv t := by
  cases heffect
  case raise c o a _ => exact cycleInv_raise h hp c o a
  case store x hin => exact cycleInv_of_inv (inv_setMem h _ _ (by rwa [State.regList_length]))
  case pop l v hstack =>
    refine cycleInv_of_inv { h with stackBound := fun k hk => ?_ }
    have hle := h.stackBound k hk
    rw [hstack, List.length_append] at hle
    exact Nat.le_of_add_right_le hle
  case push nnn hroom =>
    refine cycleInv_of_inv { h with stackBound := fun k hk => ?_ }
    have hle := h.stackBound k hk
    have hne : k ≠ s.stack.length := fun he => hroom (hk.trans (congrArg some he))
    have hlength : (s.stack ++ [s.pc]).length = s.stack.length + 1 := by simp
    rw [State.setPc_stack, State.setStack_stack, hlength]
    omega
  case keyHeld x w _ =>
    exact cycleInv_of_inv { h with
      faultIdle := fun hne => absurd hf hne
      pumpAtEnd := nofun
      keyOpen := fun _ _ => hhalt }
  case keyWritten | keyCancelled =>
    exact cycleInv_of_inv { h with
      faultIdle := fun hne => absurd hf hne
      pumpAtEnd := nofun
      keyOpen := nofun }
  all_goals exact cycleInv_of_inv { h with }

/-- The answer to a held request ends the wait, and of a pump the frame. -/
theorem inv_answer {s : State} (h : s.Inv) (hf : s.fault = none) (p : Pending) : (s.answer p).Inv := by
  cases p with
  | key x =>
    have hkeep : ∀ (v : Vector Byte 16) (b : Bool),
        State.Inv (State.redraw { s with regs := v, halt := b, pending := none }) := fun v b =>
      { h with
        faultIdle := fun hne => absurd hf hne
        pumpAtEnd := nofun
        keyOpen := nofun }
    cases hreply : Config.keyReply s.draws with
    | some k => rw [answer_key_of_reply s x k hreply]; exact hkeep _ _
    | none => rw [answer_key_of_cancel s x hreply]; exact hkeep _ _
  | pump =>
    exact { h with
      faultIdle := fun hne => absurd hf hne
      pumpAtEnd := nofun
      keyOpen := nofun
      frameOpen := fun hne => absurd rfl hne
      stopNow := nofun }

theorem inv_poll {s : State} (h : s.Inv) (hf : s.fault = none) (p : Pending) : (s.poll p).Inv := by
  rcases s.poll_cases p with ⟨_, e⟩ | ⟨n, _, e⟩ | ⟨_, e⟩ <;> rw [e]
  · exact h
  · exact { h with }
  · exact inv_answer h hf p

theorem inv_finishFrame {s : State} (h : s.Inv) (hf : s.fault = none) (f : FrameRun) (hframe : s.frame = some f)
    (hleft : f.left = 0) : s.finishFrame.Inv :=
  inv_poll (s := (s.send .present).hold .pump .pump)
    { h with
      faultIdle := fun hne => absurd hf hne
      pumpAtEnd := fun _ => ⟨f, hframe, hleft⟩
      keyOpen := nofun } hf .pump

/-- A host call is made beside no frame and no held request. -/
theorem idle_of_makes {s : State} (h : s.Inv) {c : HostCall} {cs : List HostCall} (hmakes : s.Makes c cs) :
    s.frame = none ∧ s.pending = none := by
  obtain ⟨_, hfault | ⟨hp, hframe⟩⟩ := hmakes
  · exact h.faultIdle hfault
  · exact ⟨hframe, hp⟩

theorem inv_hostReset {s : State} (h : s.Inv) : s.hostReset.Inv :=
  { inv_resetWith s.params h.paramsOk with }

theorem inv_hostLoad {s : State} (h : s.Inv) (hidle : s.frame = none ∧ s.pending = none) (a : Nat)
    (bs : List Byte) : (s.hostLoad a bs).Inv := by
  rcases s.hostLoad_cases a bs with ⟨hin, e⟩ | ⟨_, e⟩ <;> rw [e]
  · exact inv_setMem h a bs hin
  · exact { h with faultIdle := fun _ => hidle }

theorem inv_startFrame {s : State} (h : s.Inv) (hf : s.fault = none) (hp : s.pending = none) (n : Nat) :
    (s.startFrame n).Inv :=
  { h with
    faultIdle := fun hne => absurd hf hne
    pumpAtEnd := fun hpump => by simp [hp] at hpump
    frameOpen := fun _ => rfl
    stopNow := fun _ f hframe => by
      obtain rfl := Option.some.inj hframe
      rfl }

/-! ## Every step -/

theorem inv_of_stepEffect {s t : State} (h : s.Inv) (heffect : StepEffect s t) : t.Inv := by
  cases heffect with
  | reset cs _ => exact inv_hostReset (s := { s with calls := cs }) { h with }
  | load a bs cs hmakes =>
    have hidle := idle_of_makes h hmakes
    exact inv_hostLoad (s := { s with calls := cs }) { h with } hidle a bs
  | frame n cs hmakes hf =>
    obtain ⟨_, hp⟩ := idle_of_makes h hmakes
    exact inv_startFrame (s := { s with calls := cs }) { h with } hf hp n
  | wait p hf _ => exact inv_settleFrame (cycleInv_of_inv (inv_poll h hf p))
  | finish f hf _ hframe hleft => exact inv_finishFrame h hf f hframe hleft
  | fetchFault hready =>
    obtain ⟨hf, hp, _⟩ := hready
    exact inv_settleFrame (cycleInv_raise (inv_beginCycle h hp) hp _ _ _)
  | illegal w hready =>
    obtain ⟨hf, hp, _⟩ := hready
    exact inv_settleFrame (cycleInv_raise (s := s.atDispatch) { inv_beginCycle h hp with } hp _ _ _)
  | run w i u hready _ _ hrun =>
    obtain ⟨hf, hp, _⟩ := hready
    exact inv_settleFrame (cycleInv_of_effect (s := s.atDispatch) { inv_beginCycle h hp with } hf hp rfl hrun)

/-- Settles O48, by the case of the step. -/
theorem invariantIsKept : Obligations.InvariantIsKept :=
  fun s t h hstep => inv_of_stepEffect h (stepEffect_of_step s t hstep)

end Sys2Proof
end

section
/-! The cycle of a ready block (30_encoding.md section 4) and the reads of memory it fetches by (20_memory.md section 4). -/

namespace Sys2Proof

open Sys2Proof.Machine

/-! ## Reads (R52, R55) -/

/-- Settles O41: the range test, and a word by its two bytes. -/
theorem memReadChecksBoundsAndReadsBigEndian : Obligations.MemReadChecksBoundsAndReadsBigEndian := by
  intro s a
  refine ⟨fun h => ?_, fun h => ?_, fun h => ⟨_, ?_, hiByte_wordOf _ _, loByte_wordOf _ _⟩, fun h => ?_⟩
  · rw [State.memRead8, if_pos ((s.inRange_iff a 1).mpr h)]
  · rw [State.memRead8, if_neg (by rw [State.inRange_iff]; omega)]
  · rw [State.memRead16, if_pos ((s.inRange_iff a 2).mpr h)]
  · rw [State.memRead16, if_neg (by rw [State.inRange_iff]; omega)]

theorem fetch_eq_some {s : State} {w : Word} (h : s.fetch = some w) :
    s.pc.toNat + 2 ≤ s.params.memSize.bytes ∧
      w = wordOf (Memory.read s.mem s.pc.toNat) (Memory.read s.mem (s.pc.toNat + 1)) := by
  rcases s.fetch_cases with ⟨hin, e⟩ | ⟨_, e⟩
  · exact ⟨hin, Option.some.inj (h.symm.trans e)⟩
  · exact absurd (h.symm.trans e) (by simp)

/-! ## The step of a ready block, by its fetch and its word -/

theorem step_of_fetch_none (s : State) (hready : s.Ready) (h : s.fetch = none) :
    step s = .next (s.beginCycle.raise .outOfBoundsAccess none s.pc.toNat).settleFrame := by
  rw [step_of_ready s hready, frameCycle, cycle, fetch_beginCycle, h]
  rfl

theorem step_of_unsupported (s : State) (w : Word) (hready : s.Ready) (h : s.fetch = some w)
    (hdecode : decode w = .unsupportedInstruction w) :
    step s = .next (s.atDispatch.raise .unsupportedInstruction (some w) s.pc.toNat).settleFrame := by
  have haddr : s.beginCycle.advance.fetchAddr = s.pc.toNat := State.fetchAddr_advance s.beginCycle
  rw [step_of_ready s hready, frameCycle, cycle, fetch_beginCycle, h]
  simp only [dispatchWord, hdecode, mapNext_next, haddr, State.atDispatch]

theorem step_of_instr (s : State) (w : Word) (i : Instr) (hready : s.Ready) (h : s.fetch = some w)
    (hdecode : decode w = .instr i) : step s = mapNext State.settleFrame (exec i s.atDispatch) := by
  rw [step_of_ready s hready, frameCycle, cycle, fetch_beginCycle, h]
  simp only [dispatchWord, hdecode, State.atDispatch]

theorem atDispatch_pc_toNat (s : State) : s.atDispatch.pc.toNat = (s.pc.toNat + 2) % 65536 :=
  BitVec.toNat_add s.pc 2

theorem beginCycle_unchangedBut (s : State) : UnchangedBut [] [.halt, .frame] s s.beginCycle :=
  (setHalt_unchangedBut s false).trans (setFrame_unchangedBut _ _)

theorem atDispatch_unchangedBut (s : State) : UnchangedBut [] [.pc, .halt, .frame] s s.atDispatch :=
  ((beginCycle_unchangedBut s).trans (setPc_unchangedBut_pc _ _)).mono (by decide) (by decide)

/-! ## The halt result (R95, R223) -/

theorem exec_waitKey_halt (s : State) (x : Reg) : ∃ t, exec (.waitKey x) s = .next t ∧
    t.halt = (s.halt || (decide (s.wait = some 0) && (Config.keyReply s.draws).isNone)) := by
  refine ⟨_, exec_waitKey x s, ?_⟩
  by_cases hw : s.wait = some 0
  · rw [poll_of_wait_zero (s.hold .key (.key x)) _ hw]
    cases hreply : Config.keyReply s.draws with
    | some k => rw [answer_key_of_reply (s.hold .key (.key x)) x k hreply]; simp
    | none => rw [answer_key_of_cancel (s.hold .key (.key x)) x hreply]; simp [hw]
  · rw [poll_of_wait_ne_zero (s.hold .key (.key x)) _ hw]
    simp [hw]

theorem exec_halt (i : Instr) (s t : State) (hi : ∀ x, i ≠ .waitKey x) (h : exec i s = .next t) : t.halt = s.halt :=
  (effect_of_exec i s t h).halt.resolve_right fun ⟨x, hx⟩ => hi x hx

/-! ## A faulted block (R240) -/

theorem step_of_fault (s : State) (m : FaultMark) (hf : s.fault = some m) (hcalls : s.calls = []) :
    step s = .fault (.blockFaulted m) := by
  simp [step, blockStep, hf, hcalls]

/-- Settles O38: each clause is the step's rule for that outcome of the fetch and of the decoder. -/
theorem stepRunsTheDecodedInstruction : Obligations.StepRunsTheDecodedInstruction := by
  refine ⟨step_of_instr, fun s w h => ?_,
    fun s => ⟨atDispatch_pc_toNat s, rfl, atDispatch_unchangedBut s⟩,
    fun s hready h => ⟨_, step_of_fetch_none s hready h, ?_, ?_⟩,
    fun s w hready h hdecode => ⟨_, step_of_unsupported s w hready h hdecode, ?_⟩,
    exec_halt, exec_waitKey_halt, fun s m hf hcalls t => ?_⟩
  · obtain ⟨hin, rfl⟩ := fetch_eq_some h
    exact ⟨hin, wordOf_toNat _ _⟩
  · rw [settleFrame_fault, State.raise_fault_of_none s.beginCycle hready.1]
  · obtain ⟨_, _, e⟩ := settleFrame_eq (s.beginCycle.raise .outOfBoundsAccess none s.pc.toNat)
    rw [e]
    rfl
  · rw [settleFrame_fault, State.raise_fault_of_none s.atDispatch hready.1]
  · rw [step_of_fault s m hf hcalls]
    simp

/-! ## The two faults of a cycle outside a frame (R86, R96) -/

/-- Outside a frame the beginning of a cycle clears the halt result, and its end does nothing. -/
theorem beginCycle_of_frame_none (s : State) (h : s.frame = none) : s.beginCycle = { s with halt := false } := by
  simp [State.beginCycle, h]

/-- Settles O39: where the two bytes at PC end past memory, for either capacity. -/
theorem fetchFaultsAtTheEndOfMemory : Obligations.FetchFaultsAtTheEndOfMemory := by
  refine ⟨fun s hsize => ?_, fun s hsize => ?_, fun s hready hframe h => ?_⟩
  · rw [fetch_eq_none_iff, hsize, MemSize.bytes]
    omega
  · have hlt := s.pc.isLt
    have hlast : s.pc = 0xFFFF ↔ s.pc.toNat = 65535 := BitVec.toNat_inj.symm
    rw [fetch_eq_none_iff, hsize, MemSize.bytes, hlast]
    omega
  · have hstep := step_of_fetch_none s hready h
    rw [beginCycle_of_frame_none s hframe,
      settleFrame_of_frame_none (State.raise { s with halt := false } _ _ _) hframe] at hstep
    refine ⟨_, hstep, State.raise_fault_of_none { s with halt := false } hready.1 _ _ _, ?_⟩
    exact ((setHalt_unchangedBut s false).trans (raise_unchangedBut_fault _ _ _ _)).mono (by decide) (by decide)

/-- Settles O40: the decoder rejects the word, and the step after the fault is the stop. -/
theorem illegalWordFaultsWithItsWord : Obligations.IllegalWordFaultsWithItsWord := by
  intro s w hready hframe hfetch hnomatch
  have hdecode := decode_of_decodeTable_eq_none w (decodeTable_eq_none_of_no_match opcodeTable w hnomatch)
  have hstep := step_of_unsupported s w hready hfetch hdecode
  obtain ⟨hunmarked, _, hidle⟩ := hready
  have hcalls : s.calls = [] := by simpa [hframe] using hidle
  rw [State.atDispatch, beginCycle_of_frame_none s hframe,
    settleFrame_of_frame_none ((State.advance { s with halt := false }).raise _ _ _) hframe] at hstep
  have hmark := State.raise_fault_of_none (State.advance { s with halt := false }) hunmarked
    .unsupportedInstruction (some w) s.pc.toNat
  refine ⟨_, hstep, hmark, BitVec.toNat_add s.pc 2, ?_, step_of_fault _ _ hmark hcalls⟩
  exact (((setHalt_unchangedBut s false).trans (setPc_unchangedBut_pc _ (s.pc + 2))).trans
    (raise_unchangedBut_fault _ _ _ _)).mono (by decide) (by decide)

end Sys2Proof
end

section
/-! The host's calls (70_reset_and_hazards.md) and the fault mark that only its reset clears (60_exceptions.md section 1). -/

namespace Sys2Proof

open Sys2Proof.Machine

/-! ## The construction state and the host's reset (R36, R280, R281) -/

theorem resetWith_readReg (p : Params) (r : Reg) : (State.resetWith p).readReg r = 0 := by
  simp [State.readReg, State.resetWith, Vector.get_eq_getElem]

theorem resetWith_read (p : Params) (a : Nat) : Memory.read (State.resetWith p).mem a = 0 := rfl

/-- Settles O50: the fields of the construction state. -/
theorem constructionStateIsTheDefault : Obligations.ConstructionStateIsTheDefault :=
  ⟨rfl, fun p => ⟨rfl, rfl, rfl, resetWith_readReg p, rfl, rfl, rfl, resetWith_read p⟩⟩

theorem step_of_makes_reset (s : State) (cs : List HostCall) (h : s.Makes .reset cs) :
    step s = .next (State.hostReset { s with calls := cs }) := step_of_makes s .reset cs h

/-- Settles O51: the reset is the construction state but for the parameters, the history and the model's own fields. -/
theorem hostResetRebuildsTheDefaults : Obligations.HostResetRebuildsTheDefaults :=
  fun s cs hp hframe hcalls =>
    ⟨_, step_of_makes_reset s cs ⟨hcalls, .inr ⟨hp, hframe⟩⟩, resetWith_readReg s.params, rfl, rfl, rfl, rfl, rfl,
      resetWith_read s.params, rfl, rfl, rfl, rfl, rfl, rfl, rfl, rfl⟩

/-! ## The host's load (R283) -/

theorem hostLoad_of_inRange (s : State) (a : Nat) (bs : List Byte) (h : a + bs.length ≤ s.params.memSize.bytes) :
    s.hostLoad a bs = { s with mem := Memory.writeList s.mem a bs } := by
  rw [State.hostLoad, memSliceWrite_of_inRange s a bs h]

theorem hostLoad_of_outOfRange (s : State) (a : Nat) (bs : List Byte) (h : s.params.memSize.bytes < a + bs.length) :
    s.hostLoad a bs = s.raise .outOfBoundsAccess none a := by
  rw [State.hostLoad, memSliceWrite_of_outOfRange s a bs h]

theorem step_of_makes_load (s : State) (a : Nat) (bs : List Byte) (cs : List HostCall) (h : s.Makes (.load a bs) cs) :
    step s = .next (State.hostLoad { s with calls := cs } a bs) := step_of_makes s (.load a bs) cs h

theorem setCalls_unchangedBut (s : State) (cs : List HostCall) : UnchangedBut [] [.calls] s { s with calls := cs } :=
  unchangedBut_of_regs_eq rfl (by simp [Part.forall_iff, Part.same])

/-- Settles O60: the load is the slice write, or the fault before any byte. -/
theorem hostLoadWritesItsBytesOrFaults : Obligations.HostLoadWritesItsBytesOrFaults := by
  refine ⟨fun s a bs cs hm hf hp hframe hcalls hin => ?_, fun s a bs cs hf hp hframe hcalls hout => ?_⟩
  · have hstep := step_of_makes_load s a bs cs ⟨hcalls, .inr ⟨hp, hframe⟩⟩
    rw [hostLoad_of_inRange { s with calls := cs } a bs hin] at hstep
    exact ⟨_, hstep, read_writeList_inside s.mem hm a bs, read_writeList_outside s.mem hm a bs,
      ((setCalls_unchangedBut s cs).trans (setMem_unchangedBut _ _)).mono (by decide) (by decide)⟩
  · have hstep := step_of_makes_load s a bs cs ⟨hcalls, .inr ⟨hp, hframe⟩⟩
    rw [hostLoad_of_outOfRange { s with calls := cs } a bs hout] at hstep
    exact ⟨_, hstep, State.raise_fault_of_none { s with calls := cs } hf _ _ _,
      ((setCalls_unchangedBut s cs).trans (raise_unchangedBut_fault _ _ _ _)).mono (by decide) (by decide)⟩

/-! ## The fault mark (R240) -/

theorem step_of_makes_frame_of_fault (s : State) (m : FaultMark) (n : Nat) (cs : List HostCall)
    (hf : s.fault = some m) (hcalls : s.calls = .frame n :: cs) : step s = .refused .frameOnFaultedBlock := by
  rw [step_of_makes s (.frame n) cs ⟨hcalls, .inl (by simp [hf])⟩]
  simp [State.hostCall, hf]

/-- A load on a faulted block keeps the first mark (log entry 8). -/
theorem hostLoad_of_fault (s : State) (m : FaultMark) (a : Nat) (bs : List Byte) (hf : s.fault = some m) :
    ∃ mem, s.hostLoad a bs = { s with mem := mem } := by
  rcases s.hostLoad_cases a bs with ⟨_, e⟩ | ⟨_, e⟩
  · exact ⟨_, e⟩
  · refine ⟨s.mem, e.trans ?_⟩
    rw [State.raise, hf, Option.getD_some, ← hf]

/-- The one step of a faulted block that answers, beside the reset, is a load. -/
theorem step_of_fault_keeps_mark (s t : State) (m : FaultMark) (hf : s.fault = some m) (hstep : step s = .next t)
    (hcalls : ∀ cs, s.calls ≠ .reset :: cs) : t.fault = some m ∧ UnchangedBut [] [.memory, .calls] s t := by
  have hmarked : s.fault ≠ none := by simp [hf]
  cases stepEffect_of_step s t hstep with
  | reset cs hmakes => exact absurd hmakes.1 (hcalls cs)
  | load a bs cs _ =>
    obtain ⟨mem, e⟩ := hostLoad_of_fault { s with calls := cs } m a bs hf
    rw [e]
    exact ⟨hf, ((setCalls_unchangedBut s cs).trans (setMem_unchangedBut _ mem)).mono (by decide) (by decide)⟩
  | frame n cs _ hnone | wait p hnone _ | finish f hnone _ _ _ => exact absurd hnone hmarked
  | fetchFault hready | illegal w hready | run w i u hready _ _ _ => exact absurd hready.1 hmarked

theorem not_goodRun_of_fault (s : State) (k : Nat) (hf : s.fault ≠ none) : ¬ GoodRun s k := by
  cases k with
  | zero => exact hf
  | succ k => exact fun h => hf h.1

/-- Settles O47, by the head of the host's calls. -/
theorem faultIsFatalUntilReset : Obligations.FaultIsFatalUntilReset :=
  ⟨fun s c o a h => s.raise_fault_of_none h c o a, step_of_fault, step_of_makes_frame_of_fault,
    fun s cs hf hcalls => ⟨_, step_of_makes_reset s cs ⟨hcalls, .inl hf⟩, rfl⟩,
    step_of_fault_keeps_mark, not_goodRun_of_fault⟩

end Sys2Proof
end

section
/-! The end of a frame (60_exceptions.md section 4): by `present` and `pump`, by a fault, or by a halt. -/

namespace Sys2Proof

open Sys2Proof.Machine

/-! ## The end of the batch (R251, R256) -/

theorem step_of_batch_over (s : State) (h : Bool) (hf : s.fault = none) (hp : s.pending = none)
    (hframe : s.frame = some ⟨0, h⟩) : step s = .next s.finishFrame := by
  simp [step, blockStep, hf, hp, hframe]

/-- The two requests of a frame's end, the second held. -/
def requestPump (s : State) : State := (s.send .present).hold .pump .pump

theorem requestPump_unchangedBut (s : State) : UnchangedBut [] [.events, .pending] s (requestPump s) :=
  ((send_unchangedBut_events s .present).trans (hold_unchangedBut _ .pump .pump)).mono (by decide) (by decide)

theorem requestPump_events (s : State) : (requestPump s).events = s.events ++ [.present, .pump] := by
  simp [requestPump]

/-- The answer to `pump` ends the frame with `halted or quit`. -/
theorem answer_pump_stop (s : State) (k : Nat) (h : Bool) (hframe : s.frame = some ⟨k, h⟩) :
    (s.answer .pump).stop = some (h || Config.pumpQuit s.draws) := by
  simp [State.answer, State.frameHalted, hframe]

theorem answer_pump_unchangedBut (s : State) :
    UnchangedBut [] [.frame, .stop, .pending, .draws, .wait] s (s.answer .pump) :=
  unchangedBut_of_regs_eq rfl (by simp [Part.forall_iff, Part.same, State.answer])

/-! ## The end of a cycle of the batch (R254, R255) -/

/-- What a cycle that has ended makes of a frame in progress. -/
theorem settleFrame_of_cycle_ended (u : State) (k : Nat) (h : Bool) (hp : u.pending = none)
    (hframe : u.frame = some ⟨k, h⟩) :
    u.settleFrame = if u.fault ≠ none then { u with frame := none }
      else if u.halt = true ∧ u.params.haltPolicy = .stopNow then { u with frame := none, stop := some true }
      else if u.halt = true then { u with frame := some ⟨k, true⟩ }
      else u := by
  split_ifs with hf hnow hhalt
  · exact settleFrame_of_fault u _ hframe hf
  · exact settleFrame_of_halt_stopNow u _ hframe (not_ne_iff.mp hf) hp hnow.1 hnow.2
  · have hpolicy : u.params.haltPolicy = .finishBatch := by
      cases hcase : u.params.haltPolicy with
      | stopNow => exact absurd ⟨hhalt, hcase⟩ hnow
      | finishBatch => rfl
    exact settleFrame_of_halt_finishBatch u _ hframe (not_ne_iff.mp hf) hp hhalt hpolicy
  · exact settleFrame_of_not_halted u (not_ne_iff.mp hf) (Bool.not_eq_true _ ▸ hhalt)

/-- A cycle leaves the frame that it runs in to be settled. -/
theorem cycle_frame (s u : State) (h : cycle s = .next u) : u.frame = s.frame := by
  rcases cycle_cases s with ⟨_, e⟩ | ⟨w, _, _, e⟩ | ⟨w, i, _, _, e⟩
  · obtain rfl := Host.Outcome.next.inj (e.symm.trans h); rfl
  · obtain rfl := Host.Outcome.next.inj (e.symm.trans h); rfl
  · obtain ⟨_, _, hframe, _⟩ := (effect_of_exec i _ u (e.symm.trans h)).outside
    exact hframe

/-- Settles O59: the pump answered at once, later, or held; and in the batch the settling of a cycle that has ended. -/
theorem frameEndsByPumpHaltOrFault : Obligations.FrameEndsByPumpHaltOrFault := by
  refine ⟨fun s h hf hp hframe hw => ?_, fun s h hf hp hframe hw => ?_, fun s k h hf hp hframe hw => ?_,
    fun s u k h hready hframe hcycle hp => ?_⟩
  · have hstep := step_of_batch_over s h hf hp hframe
    have hpoll := poll_of_wait_zero (requestPump s) .pump hw
    exact ⟨_, hstep.trans (congrArg _ hpoll), rfl, answer_pump_stop (requestPump s) 0 h hframe, requestPump_events s,
      ((requestPump_unchangedBut s).trans (answer_pump_unchangedBut _)).mono (by decide) (by decide)⟩
  · have hstep := step_of_batch_over s h hf hp hframe
    have hpoll := poll_of_wait_ne_zero (requestPump s) .pump hw
    exact ⟨_, hstep.trans (congrArg _ hpoll), rfl, requestPump_events s,
      ((requestPump_unchangedBut s).trans (setWait_unchangedBut _ _)).mono (by decide) (by decide)⟩
  · have hstep := step_of_pending s .pump hf hp
    rw [poll_of_wait_zero s _ hw, settleFrame_of_frame_none (s.answer .pump) rfl] at hstep
    exact ⟨_, hstep, rfl, rfl, answer_pump_stop s k h hframe, answer_pump_unchangedBut s⟩
  · have hcount : u.frame = some ⟨k, h⟩ := by rw [cycle_frame _ u hcycle, State.beginCycle_frame, hframe]; rfl
    refine ⟨hcount, ?_⟩
    rw [step_of_ready s hready, frameCycle, hcycle, mapNext_next, settleFrame_of_cycle_ended u k h hp hcount]

end Sys2Proof
end
